-- ==== Sys2Proof/Word.lean ====
section
/-! DEFINITION. The raw values the ports of CORE carry: lines, event words, per-line bit pairs, bit strings, and
one entry of the input stream (spec 10_state.md, 20_memory.md, 30_encoding.md). -/

namespace Sys2Proof

/-- The two logical lines (R14). The line bit of an event word is 0 for `zeroLine` and 1 for `oneLine` (R71). -/
inductive Line where
  /-- ZeroLine, `Z`: a falling edge signals bit 0. -/
  | zeroLine
  /-- OneLine, `O`: a falling edge signals bit 1. -/
  | oneLine
deriving DecidableEq, Repr

/-- An event word `EV[2:0]` (R70), bit 0 the line and bits 2 to 1 the kind. -/
abbrev EventWord := BitVec 3

/-- One bit per line: `timeoutFlags`, `armed`, `arm` and `disarm` (R23, R24, R37). Bit 0 of the hardware's pair
is `zero` (ZeroLine) and bit 1 is `one` (OneLine). -/
structure LineBits where
  zero : Bool
  one : Bool
deriving DecidableEq, Repr

/-- A bit string, leftmost (most significant) character first (R10). -/
abbrev BitString := List Bool

/-- What the environment presents at CORE's input ports in one step. -/
inductive Input where
  /-- Event words on port `ev` (R35): the word delivered, and any further words presented in the same step.
  The serialization boundary presents one word a step, so `others` is empty in every legal run (R57, R220). -/
  | ev (word : EventWord) (others : List EventWord)
  /-- A request on the buses `fx_n` and `fx_v` (R77). -/
  | fx (n v : Nat)
deriving DecidableEq, Repr

end Sys2Proof
end

