-- ==== Sys2Proof/Machine/Operands.lean ====
section
/-! DEFINITION. Operand assembly: the fields of an event word and the operands of an FX request
(spec 30_encoding.md R70 to R72, R76, R77; 41_field_extractor.md R151). -/

namespace Sys2Proof.Machine

/-- The line bit `EV[0]` of a line (R71). -/
def lineBit : Line → BitVec 1
  | .zeroLine => 0b0
  | .oneLine => 0b1

/-- The line a line bit stands for (R71). -/
def lineOfBit (b : BitVec 1) : Line := if b = 0b1 then .oneLine else .zeroLine

/-- The field `kind = EV[2:1]` (R70). -/
def kindField (w : EventWord) : BitVec 2 := w.extractLsb' 1 2

/-- The field `line = EV[0]` (R70). -/
def lineField (w : EventWord) : BitVec 1 := w.extractLsb' 0 1

/-- The event word with these two fields (R70). -/
def eventWord (kind : BitVec 2) (line : BitVec 1) : EventWord := kind ++ line

/-- The data bit `b(l)` an edge on line `l` shifts in: `b(Z) = 0`, `b(O) = 1` (R12, R76). -/
def dataBit : Line → Nat
  | .zeroLine => 0
  | .oneLine => 1

/-- The other line. -/
def otherLine : Line → Line
  | .zeroLine => .oneLine
  | .oneLine => .zeroLine

/-- The line whose edge carries this bit (R14): `EDGE0` for 0 and `EDGE1` for 1. -/
def lineOfData (b : Bool) : Line := if b then .oneLine else .zeroLine

/-- The input contract of FX, `v < 2^n` (R77, R151). -/
def meetsContract (n v : Nat) : Bool := decide (v < 2 ^ n)

end Sys2Proof.Machine
end

