-- ==== Sys2Proof/Syntax.lean ====
section
/-! DEFINITION. The operations of CORE, one constructor per row of spec/opcode_table.json. -/

namespace Sys2Proof

/-- The operations of R73 and R150. The table has two rows named `RESERVED`, so two constructors stand for them. -/
inductive Instr where
  /-- `EDGE0`, word `000` (R110). -/
  | edge0
  /-- `EDGE1`, word `001` (R111). -/
  | edge1
  /-- `TMO0`, word `010` (R120). -/
  | tmo0
  /-- `TMO1`, word `011` (R121). -/
  | tmo1
  /-- `CANCEL`, word `100` (R130). -/
  | cancel
  /-- `RESERVED`, word `101`: kind Cancel with a line bit it may not have (R74). -/
  | reserved101
  /-- `RESERVED`, words `110` and `111`: the reserved kind with either line bit (R74). -/
  | reserved11x (line : Line)
  /-- `EXTRACT n, v`, the request `(fx_n, fx_v)` (R77, R150). -/
  | extract (n v : Nat)
deriving DecidableEq, Repr

end Sys2Proof
end

