-- ==== Sys2Proof/WellFormed.lean ====
section
/-! DEFINITION. Well-formed instructions. The one operand constraint of the spec is FX's input contract. -/

namespace Sys2Proof

/-- An event word has no operand to check (R76); an FX request keeps the contract `v < 2^n` (R77, R151). A request
outside it can be presented, and EXTRACT refuses it (R184). -/
def Instr.wf : Instr → Bool
  | .edge0 => true
  | .edge1 => true
  | .tmo0 => true
  | .tmo1 => true
  | .cancel => true
  | .reserved101 => true
  | .reserved11x _ => true
  | .extract n v => Machine.meetsContract n v

end Sys2Proof
end

