-- ==== Sys2Proof/Decode.lean ====
section
/-! DEFINITION. The decoder of event words and FX requests, and the encoder, from the opcode map of
spec 30_encoding.md R70 to R77. -/

namespace Sys2Proof

/-- Why an input is no single operation. -/
inductive DecodeReject where
  /-- More than one event word was presented in one step (R220). -/
  | simultaneousEvents (word : EventWord) (others : List EventWord)
deriving DecidableEq, Repr

/-- The opcode map R73, dispatched on the fields `kind` and `line` of R72 and R71: every word is one of the five
operations or reserved. -/
def decodeWord (w : EventWord) : Instr :=
  let line := Machine.lineOfBit (Machine.lineField w)
  match (Machine.kindField w).toNat, line with
  | 0b00, .zeroLine => .edge0
  | 0b00, .oneLine => .edge1
  | 0b01, .zeroLine => .tmo0
  | 0b01, .oneLine => .tmo1
  | 0b10, .zeroLine => .cancel
  | 0b10, .oneLine => .reserved101
  | _, l => .reserved11x l

/-- The operation an input asks for. An FX request has no opcode: FX performs one operation (R77). -/
def decode : Input → Except DecodeReject Instr
  | .ev w [] => .ok (decodeWord w)
  | .ev w (w' :: ws) => .error (.simultaneousEvents w (w' :: ws))
  | .fx n v => .ok (.extract n v)

/-- The input that presents an operation: the `encoding` column of the opcode table (R73, R77). -/
def encode : Instr → Input
  | .edge0 => .ev (Machine.eventWord 0b00 0b0) []
  | .edge1 => .ev (Machine.eventWord 0b00 0b1) []
  | .tmo0 => .ev (Machine.eventWord 0b01 0b0) []
  | .tmo1 => .ev (Machine.eventWord 0b01 0b1) []
  | .cancel => .ev (Machine.eventWord 0b10 0b0) []
  | .reserved101 => .ev (Machine.eventWord 0b10 0b1) []
  | .reserved11x l => .ev (Machine.eventWord 0b11 (Machine.lineBit l)) []
  | .extract n v => .fx n v

/-- The input whose bits are `w`, for a table row of `nbits` bits. An event word has exactly three bits (R70, R75):
a number with a bit above `EV[2]` is no event word. The row of EXTRACT has no opcode bits (`nbits` 0), and its
operands are then zeros: the request `(0, 0)`. DESIGN CHOICE, log entry 11: safe. -/
def tableInput (nbits w : Nat) : Option Input :=
  if nbits = 0 then
    if w = 0 then some (.fx 0 0) else none
  else if w < 8 then some (.ev (BitVec.ofNat 3 w) []) else none

/-- What the decoder reads from an opcode-table word. -/
def decodeTableWord (nbits w : Nat) : Option Instr :=
  match tableInput nbits w with
  | none => none
  | some inp => (decode inp).toOption

end Sys2Proof
end

