-- ==== Sys2Proof/Machine/Flags.lean ====
section
/-! DEFINITION. Reading and writing the two-bit registers with one bit per line, and every computation on the timeout
flags (spec 10_state.md R23, R24; 40_frame_accumulator.md R106, R115). -/

namespace Sys2Proof.Machine

/-- `00` -/
def noLine : LineBits := { zero := false, one := false }

/-- `11` -/
def bothLines : LineBits := { zero := true, one := true }

/-- `x[l]` -/
def getLine (x : LineBits) : Line → Bool
  | .zeroLine => x.zero
  | .oneLine => x.one

/-- `x` with bit `l` written. -/
def setLine (x : LineBits) (l : Line) (b : Bool) : LineBits :=
  match l with
  | .zeroLine => { x with zero := b }
  | .oneLine => { x with one := b }

/-- The hardware's pair, bit 0 for ZeroLine (R23, R24, R84). -/
def lineBitsWord (x : LineBits) : BitVec 2 := BitVec.ofBool x.one ++ BitVec.ofBool x.zero

/-- An edge on `l` clears the flag of `l` only (R106). -/
def flagsAfterEdge (f : LineBits) (l : Line) : LineBits := setLine f l false

/-- `F'`: a timeout on `l` sets the flag of `l` (R115). -/
def flagsAfterTimeout (f : LineBits) (l : Line) : LineBits := setLine f l true

/-- The completion test `F' = 11` (R115). -/
def completesFrame (f : LineBits) (l : Line) : Bool := decide (flagsAfterTimeout f l = bothLines)

end Sys2Proof.Machine
end

