-- ==== Sys2Proof/Config.lean ====
section
/-! DEFINITION. What an instance fixes at its construction: the parameters of spec 00_scope.md R7, R32 and R158, as
plain data. The default values and the checks stand in Machine/Formats.lean. -/

namespace Sys2Proof

/-- An inclusive slice `(a, b)` of string indices, 0 at the most significant bit (R158). -/
structure Slice where
  a : Nat
  b : Nat
deriving DecidableEq, Repr

/-- A format descriptor `(fc, cn, cnnf, header)` (R158). -/
structure Descriptor where
  /-- `facilityCodeSlice` -/
  fc : Slice
  /-- `cardNumberSlice` -/
  cn : Slice
  /-- `cardNumberNoFacilitySlice` -/
  cnnf : Slice
  /-- `headerBits` -/
  header : BitString
deriving DecidableEq, Repr

/-- The format ROM `FMT`: a finite partial map from bit lengths to descriptors (R33, R51, R158). -/
abbrev FormatTable := List (Nat × Descriptor)

/-- The widths of a finite hardware realisation (R7). -/
structure Widths where
  /-- `VALUE_W` -/
  valueW : Nat
  /-- `COUNT_W` -/
  countW : Nat
  /-- `FX_N_W` -/
  fxNW : Nat
deriving DecidableEq, Repr

/-- The configuration of one FA with its FX (R7, R32, R33). `SINK` is the output port `emit` (R7, R36), so it has
no field here. -/
structure Configuration where
  /-- `LINE_ID_ZERO` -/
  lineIdZero : Nat
  /-- `LINE_ID_ONE` -/
  lineIdOne : Nat
  /-- `T_MS`; no rule reads it (R228). -/
  tMs : Nat
  /-- `none` in the reference model, where no width is bounded (R7, R8). -/
  widths : Option Widths
  /-- `FMT` -/
  fmt : FormatTable
deriving DecidableEq, Repr

end Sys2Proof
end

