-- ==== Sys2Proof/Machine/BitString.lean ====
section
/-! DEFINITION. The bit-string and bit-field primitives of spec 00_scope.md R10 and R11. -/

namespace Sys2Proof.Machine

/-- `bin_n(v)`: the string of exactly `n` characters, most significant first, left-padded with zeros (R11, R151).
The spec defines it for `v < 2^n`. -/
def bin : Nat → Nat → BitString
  | 0, _ => []
  | n + 1, v => v.testBit n :: bin n v

/-- `parseU(s)`, the unsigned value of a string: character `i` weighs `2^(|s|−1−i)` (R11). -/
def parseU : BitString → Nat
  | [] => 0
  | b :: s => b.toNat * 2 ^ s.length + parseU s

/-- `s⟨a..b⟩`, the characters `a` to `b` inclusive (R10). -/
def substring (s : BitString) (sl : Slice) : BitString := (s.drop sl.a).take (sl.b + 1 - sl.a)

/-- `v[hi:lo]`, bits `hi` down to `lo` of a number (R10). -/
def bitField (v hi lo : Nat) : Nat := (v >>> lo) % 2 ^ (hi + 1 - lo)

/-- The hexadecimal digit of a number below 16, uppercase (R11, R82). -/
def hexDigit : Nat → Char
  | 0 => '0' | 1 => '1' | 2 => '2' | 3 => '3' | 4 => '4' | 5 => '5' | 6 => '6' | 7 => '7'
  | 8 => '8' | 9 => '9' | 10 => 'A' | 11 => 'B' | 12 => 'C' | 13 => 'D' | 14 => 'E' | _ => 'F'

/-- `hex_d(x)`: exactly `d` digits, most significant first (R11, R54). The spec defines it for `x < 16^d`. -/
def hex : Nat → Nat → List Char
  | 0, _ => []
  | d + 1, x => hexDigit (x / 16 ^ d % 16) :: hex d x

end Sys2Proof.Machine
end

