-- ==== Sys2Proof/Machine/Formats.lean ====
section
/-! DEFINITION. The format ROM, its default contents, and the checks a configuration must pass before an FA is
constructed (spec 00_scope.md R7; 20_memory.md R51; 41_field_extractor.md R158 to R162; 70_reset_and_hazards.md
R213, R214). -/

namespace Sys2Proof.Machine

/-- The header of the default table: `63 − n` zeros and one `1` (R160 to R162, D5). -/
def defaultHeader (n : Nat) : BitString := List.replicate (63 - n) false ++ [true]

/-- The default descriptor for 26 bits (R160). -/
def descriptor26 : Descriptor :=
  { fc := ⟨1, 8⟩, cn := ⟨9, 24⟩, cnnf := ⟨1, 24⟩, header := defaultHeader 26 }

/-- The default descriptor for 35 bits (R161). -/
def descriptor35 : Descriptor :=
  { fc := ⟨2, 13⟩, cn := ⟨14, 33⟩, cnnf := ⟨2, 33⟩, header := defaultHeader 35 }

/-- The default descriptor for 37 bits (R162). -/
def descriptor37 : Descriptor :=
  { fc := ⟨1, 16⟩, cn := ⟨17, 35⟩, cnnf := ⟨1, 35⟩, header := defaultHeader 37 }

/-- The default format table (R160 to R162): the spec's own choice, so a claim that holds only under it is a claim about
that choice (R159). -/
def defaultFmt : FormatTable := [(26, descriptor26), (35, descriptor35), (37, descriptor37)]

/-- `FMT_LOOKUP(n)` (R51). -/
def fmtLookup : FormatTable → Nat → Option Descriptor
  | [], _ => none
  | (k, d) :: t, n => if k = n then some d else fmtLookup t n

/-- `UNKNOWN_HDR`, the one-bit header used where no descriptor exists (R7, R154). -/
def unknownHdr : BitString := [false]

/-- `HEX_MIN_DIGITS` (R7). -/
def hexMinDigits : Nat := 16

/-- The width of a slice, `b − a + 1` bits (R153). -/
def sliceWidth (sl : Slice) : Nat := sl.b + 1 - sl.a

/-- `0 ≤ a ≤ b < n` (R158 (i)). -/
def sliceWf (n : Nat) (sl : Slice) : Bool := decide (sl.a ≤ sl.b ∧ sl.b < n)

/-- R158 (i) and (ii): each slice lies in the codeword, and `|header| = 64 − n` with `n ≤ 64`. -/
def descriptorWf (n : Nat) (d : Descriptor) : Bool :=
  sliceWf n d.fc && sliceWf n d.cn && sliceWf n d.cnnf && decide (d.header.length + n = 64)

/-- A format table is a partial map (no key twice) with well-formed descriptors (R158, R213): the property of `FMT` that
claims over the parameter take as their premise (R159). -/
def fmtWf : FormatTable → Bool
  | [] => true
  | (k, d) :: t => descriptorWf k d && (fmtLookup t k).isNone && fmtWf t

/-- The keys of v7 are exactly 26, 35 and 37 (R158). A table may be extended with further formats, so this is no
condition of `fmtWf`. -/
def fmtIsV7 (t : FormatTable) : Bool :=
  decide (t.length = 3) && (fmtLookup t 26).isSome && (fmtLookup t 35).isSome && (fmtLookup t 37).isSome

/-- The bounds R7 sets on a finite realisation: `VALUE_W ≥ 64`, `2^COUNT_W − 1 ≥ VALUE_W + 1`, `FX_N_W ≥ 7`. -/
def widthsWf (w : Widths) : Bool :=
  decide (64 ≤ w.valueW) && decide (w.valueW + 1 ≤ 2 ^ w.countW - 1) && decide (7 ≤ w.fxNW)

/-- What the owner must choose before construction: distinct line identifiers and `T_MS > 0` (R214), widths within
R7's bounds, and a well-formed format table (R213). -/
def configurationWf (c : Configuration) : Bool :=
  decide (c.lineIdZero ≠ c.lineIdOne) && decide (0 < c.tMs) && c.widths.all widthsWf && fmtWf c.fmt

/-- The widths of the default finite realisation: 64, 8, 8 (R7). -/
def defaultWidths : Widths := { valueW := 64, countW := 8, fxNW := 8 }

/-- The reference model (no width bounded, R7) with the default format table. The spec leaves `T_MS` and the line
identifiers open: DESIGN CHOICE, log entry 4, unsafe for a statement that leans on them; no rule reads them. -/
def referenceConfiguration : Configuration :=
  { lineIdZero := 0, lineIdOne := 1, tMs := 1, widths := none, fmt := defaultFmt }

/-- The default finite realisation (R7), with the same open parameters. -/
def defaultConfiguration : Configuration := { referenceConfiguration with widths := some defaultWidths }

/-- The role the Edge Source gives a physical line (R7, R71): fixed by the configuration. -/
def roleOf (c : Configuration) (id : Nat) : Option Line :=
  if id = c.lineIdZero then some .zeroLine else if id = c.lineIdOne then some .oneLine else none

/-- A bit count that does not fit a finite `VALUE_W`; never, in the reference model (R107). -/
def exceedsValueW (c : Configuration) (bitCount : Nat) : Bool :=
  match c.widths with
  | none => false
  | some w => decide (w.valueW < bitCount)

end Sys2Proof.Machine
end

