-- ==== Sys2Proof/Machine/State.lean ====
section
/-! DEFINITION. The state of CORE as plain data, the reasons a step can stop, and the state right after construction
(spec 10_state.md R20 to R26, R32, R36, R37, R41; 30_encoding.md R79; 60_exceptions.md R182 to R185). -/

namespace Sys2Proof.Machine

/-- The control state (R20). -/
inductive Ctl where
  /-- No frame open; encoded 0. -/
  | idle
  /-- A frame is open; encoded 1. -/
  | accumulating
deriving DecidableEq, Repr

/-- A record in `faults` (R26). The machine goes on after it (R102, R180), so it is data, not a stop. -/
inductive FaultRecord where
  /-- `ReservedEvent`, cause code 1, with the reserved word (R182). -/
  | reservedEvent (word : EventWord)
  /-- `ValueOverflow`, cause code 2, with the new `bitCount` (R183). -/
  | valueOverflow (bitCount : Nat)
deriving DecidableEq, Repr

/-- A completed codeword `(bitCount, value)` (R14, R83). -/
structure Codeword where
  bitCount : Nat
  value : Nat
deriving DecidableEq, Repr

/-- `FieldResult` (R79). An absent field is the spec's `⊥` (R15). -/
structure FieldResult where
  known : Bool
  facilityCode : Option Nat
  cardNumber : Option Nat
  cardNumberNoFacility : Option Nat
  raw : BitString
  full : BitString
  encoded : Nat
  encodedLen : Nat
  hex : List Char
deriving DecidableEq, Repr

/-- The output ports in the step just taken: pulses, not held across steps (R36, R37, R103). -/
structure Outputs where
  /-- The codeword on `emit`; `none` where `emit_valid = 0` (R83). -/
  emit : Option Codeword
  /-- `arm[1:0]` (R37). -/
  arm : LineBits
  /-- `disarm[1:0]` (R37). -/
  disarm : LineBits
  /-- FX's answer to this step's request (R79). DESIGN CHOICE, log entry 3: safe. -/
  fx : Option FieldResult
deriving DecidableEq, Repr

/-- The state of one constructed FA with its FX: the registers R20 to R26, the output ports, the configuration (read
only, log entry 2), and the inputs the environment will present (log entry 1). -/
structure State where
  /-- R20 -/
  state : Ctl
  /-- R21 -/
  bitCount : Nat
  /-- R22 -/
  value : Nat
  /-- R23 -/
  timeoutFlags : LineBits
  /-- R24 -/
  armed : LineBits
  /-- R25 -/
  live : Bool
  /-- R26: a set, held as a list whose keys strictly rise. DESIGN CHOICE, log entry 8: safe. -/
  faults : List FaultRecord
  /-- R36, R37 -/
  out : Outputs
  /-- R32, R33: written by nothing. DESIGN CHOICE, log entry 2: safe. -/
  cfg : Configuration
  /-- R31, R58: one entry per step, the next first; the interleaving the environment chose, not the pending set of
  R39. DESIGN CHOICE, log entry 1: safe, since a statement over all states is a statement over all streams. -/
  stream : List Input
deriving DecidableEq, Repr

/-- Reasons for which the machine would stop with a fault. CORE has no fatal error, trap or halt (R180, R189), and its
fault records do not stop it (R102), so there is none: no constructor, raised by no step, safe. -/
inductive Fault where
deriving DecidableEq, Repr

/-- Reasons for which the model gives a step no meaning. -/
inductive Refusal where
  /-- Raised by no arm of this model: an instruction without a meaning would answer it. Safe. -/
  | notModelled (mnemonic : String)
  /-- `ExtractOutOfContract`, code 3: raised by EXTRACT when `v ≥ 2^n`, where the spec refuses (R151, R184). Safe. -/
  | extractOutOfContract (n v : Nat)
  /-- Raised by the step when more than one event word is presented in it, where the spec refuses (R220). Safe. -/
  | simultaneousEvents (word : EventWord) (others : List EventWord)
  /-- Raised by construction, and by EXTRACT before it would evaluate an ill-formed descriptor, where the spec refuses
  the configuration (R213, R214). Safe. -/
  | illFormedConfiguration
deriving DecidableEq, Repr

/-- No output asserted (R103). -/
def Outputs.none : Outputs := { emit := Option.none, arm := noLine, disarm := noLine, fx := Option.none }

/-- The fields construction sets, at the values of R41, for a given configuration. -/
def State.constructed (c : Configuration) : State :=
  { state := .idle
    bitCount := 0
    value := 0
    timeoutFlags := noLine
    armed := noLine
    live := true
    faults := []
    out := Outputs.none
    cfg := c
    stream := [] }

/-- The machine right after construction of the reference model (R41, R210). DESIGN CHOICE, log entries 4, 5 and 6: the
spec leaves the configuration open, so a statement that leans on this one is unsafe. -/
def State.reset : State := State.constructed referenceConfiguration

end Sys2Proof.Machine
end

