-- ==== Sys2Proof/Machine/Ops.lean ====
section
/-! DEFINITION. The shared operations: fault records, the transitions of the frame accumulator, the delivery of an FX
result, construction, and taking the next input (spec 40_frame_accumulator.md R100 to R117, R130; 60_exceptions.md
R182, R183; 70_reset_and_hazards.md R210 to R214). Each reads the state before the step, and its writes land together
(R12). -/

namespace Sys2Proof.Machine

/-- The cause codes of the two records (R185). -/
def causeCode : FaultRecord → Nat
  | .reservedEvent _ => 1
  | .valueOverflow _ => 2

/-- The info recorded with a fault (R185), as a number. -/
def faultInfo : FaultRecord → Nat
  | .reservedEvent w => w.toNat
  | .valueOverflow n => n

/-- The refusal code of R185, for the one refusal the spec numbers. -/
def refusalCode : Refusal → Option Nat
  | .extractOutOfContract _ _ => some 3
  | _ => none

/-- The order in which the set of records is listed: by code, then by info. -/
def faultBefore (a b : FaultRecord) : Bool :=
  decide (causeCode a < causeCode b) || (decide (causeCode a = causeCode b) && decide (faultInfo a < faultInfo b))

/-- A record added to the set: nothing where it is in the set already (R26, R182). -/
def insertFault (r : FaultRecord) : List FaultRecord → List FaultRecord
  | [] => [r]
  | x :: xs => if r = x then x :: xs else if faultBefore r x then r :: x :: xs else x :: insertFault r xs

/-- The canonical form of the set: keys strictly rising. -/
def faultsWf : List FaultRecord → Bool
  | [] => true
  | [_] => true
  | x :: y :: t => faultBefore x y && faultsWf (y :: t)

/-- The start of a step: no output is asserted unless a rule asserts it (R100, R103). -/
def quiet (s : State) : State := { s with out := Outputs.none }

/-- `raise Fault(reason, info)`: adds the record, changes no other field and asserts no output (R182). -/
def raiseFault (r : FaultRecord) (s : State) : State :=
  { s with faults := insertFault r s.faults, out := Outputs.none }

/-- Frame start (R105). -/
def frameStart (l : Line) (s : State) : State :=
  { s with
    state := .accumulating
    bitCount := 1
    value := dataBit l
    timeoutFlags := noLine
    armed := bothLines
    out := { Outputs.none with arm := bothLines } }

/-- The records after an append that makes the count `newCount`: `ValueOverflow` where it exceeds a finite `VALUE_W`
(R106, R107, R183). -/
def faultsAfterAppend (s : State) (newCount : Nat) : List FaultRecord :=
  if exceedsValueW s.cfg newCount then insertFault (.valueOverflow newCount) s.faults else s.faults

/-- `(value << 1) | b(l)` (R52, R106). -/
def appendBit (value : Nat) (l : Line) : Nat := (value <<< 1) ||| dataBit l

/-- Bit append (R106); the reference result defines the fields past a finite width too (R107). -/
def bitAppend (l : Line) (s : State) : State :=
  { s with
    bitCount := s.bitCount + 1
    value := appendBit s.value l
    timeoutFlags := flagsAfterEdge s.timeoutFlags l
    faults := faultsAfterAppend s (s.bitCount + 1)
    out := Outputs.none }

/-- A timeout that does not complete the frame (R115). -/
def timeoutSet (l : Line) (s : State) : State :=
  { s with timeoutFlags := flagsAfterTimeout s.timeoutFlags l, out := Outputs.none }

/-- Frame completion (R116): the codeword as it stood before the step is emitted. -/
def frameComplete (s : State) : State :=
  { s with
    state := .idle
    bitCount := 0
    value := 0
    timeoutFlags := noLine
    armed := noLine
    out := { Outputs.none with
      emit := some { bitCount := s.bitCount, value := s.value }
      disarm := bothLines } }

/-- Teardown (R130): the armed timers are disarmed, the frame is dropped, and nothing is emitted. -/
def teardown (s : State) : State :=
  { s with
    state := .idle
    bitCount := 0
    value := 0
    timeoutFlags := noLine
    armed := noLine
    live := false
    out := { Outputs.none with disarm := s.armed } }

/-- An edge on line `l`: gate, frame start or bit append (R101, R110, R111). -/
def edge (l : Line) (s : State) : State :=
  if s.live then
    match s.state with
    | .idle => frameStart l s
    | .accumulating => bitAppend l s
  else quiet s

/-- A timeout on line `l`: gate, no-op while Idle, completion, or the flag set (R101, R115 to R117, R120, R121). -/
def timeout (l : Line) (s : State) : State :=
  if s.live then
    match s.state with
    | .idle => quiet s
    | .accumulating => if completesFrame s.timeoutFlags l then frameComplete s else timeoutSet l s
  else quiet s

/-- Cancellation: teardown once, and nothing after it (R130). -/
def cancel (s : State) : State := if s.live then teardown s else quiet s

/-- The result of FX stands at its output in this step. FX writes nothing (R157), and no FA output is asserted (R103).
DESIGN CHOICE, log entry 3: safe. -/
def deliverFx (r : FieldResult) (s : State) : State := { s with out := { Outputs.none with fx := some r } }

/-- Construction (R210): an ill-formed configuration is refused (R213, R214), and a well-formed one gives every field
its reset value (R41). -/
def construct (c : Configuration) : Host.Outcome State Fault Refusal :=
  if configurationWf c then .next (State.constructed c) else .refused .illFormedConfiguration

/-- The next input of the stream, and the state with it consumed (R31, R187). -/
def fetch (s : State) : Option (Input × State) :=
  match s.stream with
  | [] => none
  | inp :: rest => some (inp, { s with stream := rest })

/-- With no event delivered, FA holds its state (R198, R211), and no output is asserted (R103). DESIGN CHOICE, log
entry 1: safe. -/
def waitForEvent (s : State) : State := quiet s

/-- An input put in front of the stream, to be taken by the next step. -/
def present (inp : Input) (s : State) : State := { s with stream := inp :: s.stream }

/-- The refusal for an input the decoder rejects (R220). -/
def refusalOfReject : DecodeReject → Refusal
  | .simultaneousEvents w ws => .simultaneousEvents w ws

end Sys2Proof.Machine
end

