-- ==== Sys2Proof/Machine/FieldExtractor.lean ====
section
/-! DEFINITION. The field extractor: the stages of EXTRACT as a pure function, and its meaning
(spec 41_field_extractor.md R150 to R157). -/

namespace Sys2Proof.Machine

/-- One field: `parseU` of the inclusive substring of `raw`, before any header (R153). -/
def fieldOf (raw : BitString) (sl : Slice) : Nat := parseU (substring raw sl)

/-- The header: the descriptor's, or `"0"` for an unknown format (R154, R156). -/
def headerOf : Option Descriptor → BitString
  | some d => d.header
  | none => unknownHdr

/-- The number of hexadecimal digits, `max(16, ⌈encodedLen/4⌉)` (R82, R155). -/
def hexDigits (encodedLen : Nat) : Nat := max hexMinDigits ((encodedLen + 3) / 4)

/-- `EXTRACT(n, v)` for a request within the contract, under a well-formed table (R150). The table is an argument, so a
claim about a field or about `encoded` names the table it is for, or a property of it (R159). -/
def extractFields (fmt : FormatTable) (n v : Nat) : FieldResult :=
  let raw := bin n v
  let d := fmtLookup fmt n
  let full := headerOf d ++ raw
  { known := d.isSome
    facilityCode := d.map fun d => fieldOf raw d.fc
    cardNumber := d.map fun d => fieldOf raw d.cn
    cardNumberNoFacility := d.map fun d => fieldOf raw d.cnnf
    raw := raw
    full := full
    encoded := parseU full
    encodedLen := full.length
    hex := hex (hexDigits full.length) (parseU full) }

/-- `EXTRACT n, v` (R150): refused outside the contract (R151, R184) and where a descriptor would be ill-formed (R213);
else the result stands at FX's output. DEDUCED, log entry 10 (the table is checked at every request): safe. -/
def execExtract (n v : Nat) (s : State) : Host.Outcome State Fault Refusal :=
  if meetsContract n v then
    if fmtWf s.cfg.fmt then .next (deliverFx (extractFields s.cfg.fmt n v) s)
    else .refused .illFormedConfiguration
  else .refused (.extractOutOfContract n v)

end Sys2Proof.Machine
end

