-- ==== Sys2Proof/Machine/FrameAccumulator.lean ====
section
/-! DEFINITION. The meanings of the event words (spec 40_frame_accumulator.md R100, R110, R111, R120, R121, R130;
30_encoding.md R74). Each of them completes in every state. -/

namespace Sys2Proof.Machine

/-- `EDGE0` (R110). -/
def execEdge0 (s : State) : Host.Outcome State Fault Refusal := .next (edge .zeroLine s)

/-- `EDGE1` (R111). -/
def execEdge1 (s : State) : Host.Outcome State Fault Refusal := .next (edge .oneLine s)

/-- `TMO0` (R120). -/
def execTmo0 (s : State) : Host.Outcome State Fault Refusal := .next (timeout .zeroLine s)

/-- `TMO1` (R121). -/
def execTmo1 (s : State) : Host.Outcome State Fault Refusal := .next (timeout .oneLine s)

/-- `CANCEL` (R130). -/
def execCancel (s : State) : Host.Outcome State Fault Refusal := .next (cancel s)

/-- The reserved word `101`: a `ReservedEvent` record and nothing else, whether live or not (R74, R100, R182). DEDUCED for
a machine that is not live, log entry 9: unsafe. -/
def execReserved101 (s : State) : Host.Outcome State Fault Refusal :=
  .next (raiseFault (.reservedEvent (eventWord 0b10 0b1)) s)

/-- The reserved words `110` and `111`: a `ReservedEvent` record and nothing else (R74, R100, R182). -/
def execReserved11x (l : Line) (s : State) : Host.Outcome State Fault Refusal :=
  .next (raiseFault (.reservedEvent (eventWord 0b11 (lineBit l))) s)

end Sys2Proof.Machine
end

