-- ==== Sys2Proof/Machine/Dispatch.lean ====
section
/-! DEFINITION. The dispatch of R100, one arm per constructor of Instr. -/

namespace Sys2Proof.Machine

def exec (i : Instr) (s : State) : Host.Outcome State Fault Refusal :=
  match i with
  | .edge0 => Sys2Proof.Machine.execEdge0 s
  | .edge1 => Sys2Proof.Machine.execEdge1 s
  | .tmo0 => Sys2Proof.Machine.execTmo0 s
  | .tmo1 => Sys2Proof.Machine.execTmo1 s
  | .cancel => Sys2Proof.Machine.execCancel s
  | .reserved101 => Sys2Proof.Machine.execReserved101 s
  | .reserved11x line => Sys2Proof.Machine.execReserved11x line s
  | .extract n v => Sys2Proof.Machine.execExtract n v s

end Sys2Proof.Machine
end

