-- ==== Sys2Proof/Machine/Step.lean ====
section
/-! DEFINITION. One step: take the next input of the stream, decode it, and run it (spec 10_state.md R31, R35;
40_frame_accumulator.md R100; 70_reset_and_hazards.md R220). -/

namespace Sys2Proof.Machine

/-- One step. With no input left the machine waits; two event words at once are refused (R220). -/
def step (s : State) : Host.Outcome State Fault Refusal :=
  match fetch s with
  | none => .next (waitForEvent s)
  | some (inp, s') =>
    match decode inp with
    | .ok i => exec i s'
    | .error why => .refused (refusalOfReject why)

/-- The state whose next step takes the instruction of an opcode-table word. A number that is no event word and no
request (`tableInput`) leaves the state as it is. DESIGN CHOICE, log entry 11: safe. -/
def State.withFetchWord (s : State) (nbits w : Nat) : State :=
  match tableInput nbits w with
  | none => s
  | some inp => present inp s

end Sys2Proof.Machine
end

