-- ==== Sys2Proof/Machine/Run.lean ====
section
/-! DEFINITION. Runs over a chosen stream of operations, and what they emit (spec 20_memory.md R58, R61). The
stream of State stands for the interleaving chosen (log entry 1). -/

namespace Sys2Proof.Machine

/-- The state with this sequence of operations as its whole input stream. -/
def withStream (is : List Instr) (s : State) : State := { s with stream := is.map encode }

/-- The codewords emitted by the first `k` steps, in order (R61). -/
def emissions : Nat → State → List Codeword
  | 0, _ => []
  | k + 1, s =>
    match step s with
    | .next t => t.out.emit.toList ++ emissions k t
    | .fault _ => []
    | .refused _ => []

/-- The codewords a sequence of operations makes the machine emit from `s`. -/
def emitted (is : List Instr) (s : State) : List Codeword := emissions is.length (withStream is s)

/-- The outcome of a sequence of operations from `s`. -/
def runOps (is : List Instr) (s : State) : Host.Outcome State Fault Refusal :=
  Sys2Proof.core.run is.length (withStream is s)

/-- `EDGE0` or `EDGE1` (R12). -/
def edgeOp : Line → Instr
  | .zeroLine => .edge0
  | .oneLine => .edge1

/-- `TMO0` or `TMO1`. -/
def timeoutOp : Line → Instr
  | .zeroLine => .tmo0
  | .oneLine => .tmo1

/-- The edges that carry a bit string, first character first (R87 `BITS`). -/
def edgesOf (bits : BitString) : List Instr := bits.map fun b => edgeOp (lineOfData b)

end Sys2Proof.Machine
end

