-- ==== Sys2Proof/Machine/Assembler.lean ====
section
/-! DEFINITION. The assembler syntax, the pseudo-instructions and the listing format (spec 30_encoding.md R85 to R88).
Text is a list of characters. -/

namespace Sys2Proof.Machine

/-- One operation of a program as written: an operation of R85 or a pseudo-instruction of R87, whose bit-string
literal is kept as its characters. -/
inductive AsmOp where
  | op (i : Instr)
  | bits (s : List Char)
  | endZeroOne
  | endOneZero
  | frame (s : List Char)
  | extractB (s : List Char)
deriving DecidableEq, Repr

/-- A bit-string literal's characters are `0` and `1` only; any other one refuses it (R87). -/
def bitsOfChars : List Char → Option BitString
  | [] => some []
  | c :: cs =>
    if c = '0' then (bitsOfChars cs).map (false :: ·)
    else if c = '1' then (bitsOfChars cs).map (true :: ·)
    else none

/-- `END`: `TMO0`, `TMO1` (R87). -/
def endOps : List Instr := [.tmo0, .tmo1]

/-- `END10`: `TMO1`, `TMO0` (R87). -/
def end10Ops : List Instr := [.tmo1, .tmo0]

/-- `BITS "s"`: refused for an empty literal and for a character other than `0` and `1` (R87). -/
def expandBits (s : List Char) : Option (List Instr) :=
  match bitsOfChars s with
  | some (b :: bs) => some (edgesOf (b :: bs))
  | some [] => none
  | none => none

/-- The operations a line stands for, or its refusal (R87). -/
def expand : AsmOp → Option (List Instr)
  | .op i => some [i]
  | .bits s => expandBits s
  | .endZeroOne => some endOps
  | .endOneZero => some end10Ops
  | .frame s => (expandBits s).map (· ++ endOps)
  | .extractB s => (bitsOfChars s).map fun bs => [.extract bs.length (parseU bs)]

/-- The value of a digit character below 16, either case. DESIGN CHOICE, log entry 14: safe. -/
def digitValue (c : Char) : Option Nat :=
  let k := c.toNat
  if 48 ≤ k ∧ k ≤ 57 then some (k - 48)
  else if 65 ≤ k ∧ k ≤ 70 then some (k - 55)
  else if 97 ≤ k ∧ k ≤ 102 then some (k - 87)
  else none

/-- Digits in a base, after an accumulated value. -/
def digitsValue (base : Nat) : Nat → List Char → Option Nat
  | acc, [] => some acc
  | acc, c :: cs =>
    match digitValue c with
    | some d => if d < base then digitsValue base (base * acc + d) cs else none
    | none => none

/-- A numeric literal: decimal, `0x` hexadecimal or `0b` binary (R86). -/
def parseNumber : List Char → Option Nat
  | [] => none
  | '0' :: 'x' :: c :: cs => digitsValue 16 0 (c :: cs)
  | '0' :: 'b' :: c :: cs => digitsValue 2 0 (c :: cs)
  | c :: cs => digitsValue 10 0 (c :: cs)

/-- A blank character, a space or a tab. DESIGN CHOICE, log entry 14: safe. -/
def isBlank (c : Char) : Bool := c = ' ' || c = Char.ofNat 9

/-- Text without blanks at either end. -/
def trim (s : List Char) : List Char := ((s.dropWhile isBlank).reverse.dropWhile isBlank).reverse

/-- Mnemonics are case-insensitive (R85). -/
def upperCase (c : Char) : Char := if 97 ≤ c.toNat ∧ c.toNat ≤ 122 then Char.ofNat (c.toNat - 32) else c

/-- The characters of a bit-string literal in double quotes (R86). -/
def parseQuoted (s : List Char) : Option (List Char) :=
  let quote := Char.ofNat 34
  match s with
  | [] => none
  | c :: rest =>
    if c = quote ∧ rest.getLast? = some quote ∧ quote ∉ rest.dropLast then some rest.dropLast else none

/-- The two numeric literals of `EXTRACT n, v` (R85). -/
def parseExtract (s : List Char) : Option AsmOp :=
  match parseNumber (trim (s.takeWhile (· ≠ ','))), s.dropWhile (· ≠ ',') with
  | some n, _ :: rest => (parseNumber (trim rest)).map fun v => .op (.extract n v)
  | _, _ => none

/-- An operation without operands. -/
def noOperand (rest : List Char) (o : AsmOp) : Option AsmOp := if rest = [] then some o else none

/-- A mnemonic, in capitals, with the text of its operands (R85, R87). -/
def parseOp (mnemonic rest : List Char) : Option AsmOp :=
  if mnemonic = ['E', 'D', 'G', 'E', '0'] then noOperand rest (.op .edge0)
  else if mnemonic = ['E', 'D', 'G', 'E', '1'] then noOperand rest (.op .edge1)
  else if mnemonic = ['T', 'M', 'O', '0'] then noOperand rest (.op .tmo0)
  else if mnemonic = ['T', 'M', 'O', '1'] then noOperand rest (.op .tmo1)
  else if mnemonic = ['C', 'A', 'N', 'C', 'E', 'L'] then noOperand rest (.op .cancel)
  else if mnemonic = ['E', 'X', 'T', 'R', 'A', 'C', 'T'] then parseExtract rest
  else if mnemonic = ['B', 'I', 'T', 'S'] then (parseQuoted rest).map .bits
  else if mnemonic = ['E', 'N', 'D'] then noOperand rest .endZeroOne
  else if mnemonic = ['E', 'N', 'D', '1', '0'] then noOperand rest .endOneZero
  else if mnemonic = ['F', 'R', 'A', 'M', 'E'] then (parseQuoted rest).map .frame
  else if mnemonic = ['E', 'X', 'T', 'R', 'A', 'C', 'T', 'B'] then (parseQuoted rest).map .extractB
  else none

/-- The operations of one source line: none for a blank line or a comment, which starts at `;` (R85). -/
def assembleLine (line : List Char) : Option (List Instr) :=
  let code := trim (line.takeWhile (· ≠ ';'))
  if code = [] then some []
  else
    let mnemonic := (code.takeWhile fun c => !isBlank c).map upperCase
    (parseOp mnemonic (trim (code.dropWhile fun c => !isBlank c))).bind expand

/-- A program: one operation per line (R85). -/
def assemble : List (List Char) → Option (List Instr)
  | [] => some []
  | l :: ls =>
    match assembleLine l, assemble ls with
    | some a, some b => some (a ++ b)
    | _, _ => none

/-- The digits of a number in a base up to 16, most significant first, with `fuel` at least their count. -/
def digitsOf (base : Nat) : Nat → Nat → List Char → List Char
  | 0, _, acc => acc
  | fuel + 1, x, acc =>
    if x < base then hexDigit x :: acc else digitsOf base fuel (x / base) (hexDigit (x % base) :: acc)

/-- A number written in a base, without leading zeros. -/
def numeral (base x : Nat) : List Char := digitsOf base (x + 1) x []

/-- An event word as three binary digits, `EV[2]` first (R88). -/
def wordDigits (w : EventWord) : List Char :=
  [w.getLsbD 2, w.getLsbD 1, w.getLsbD 0].map fun b => if b then '1' else '0'

/-- The encoding shown in a listing: the word's three digits, or `n=<decimal> v=0x<hex>` (R88). -/
def listedEncoding : Input → List Char
  | .ev w _ => wordDigits w
  | .fx n v => ['n', '='] ++ numeral 10 n ++ [' ', 'v', '=', '0', 'x'] ++ numeral 16 v

end Sys2Proof.Machine
end

