-- ==== Sys2Proof/Machine/Ports.lean ====
section
/-! DEFINITION. The ports as a finite hardware realisation drives them: status outputs, the `emit` port, the FX result
buses and the bus widths (spec 10_state.md R38; 30_encoding.md R77, R80, R81, R83; 00_scope.md R7). -/

namespace Sys2Proof.Machine

/-- The encoding of `state` (R20). -/
def ctlBit : Ctl → BitVec 1
  | .idle => 0
  | .accumulating => 1

/-- The status outputs, for verification: the fields R20 to R26 in their encodings (R38). -/
structure Status where
  state : BitVec 1
  bitCount : Nat
  value : Nat
  timeoutFlags : BitVec 2
  armed : BitVec 2
  live : BitVec 1
  faults : List FaultRecord
deriving DecidableEq, Repr

/-- The status outputs of a state (R38). -/
def statusOf (s : State) : Status :=
  { state := ctlBit s.state
    bitCount := s.bitCount
    value := s.value
    timeoutFlags := lineBitsWord s.timeoutFlags
    armed := lineBitsWord s.armed
    live := BitVec.ofBool s.live
    faults := s.faults }

/-- A natural number on a bus or in a register of `width` bits: its bits where it fits, and no value where it does not,
so nothing is truncated (R8). DEDUCED, log entry 18: safe. -/
def onBus (width x : Nat) : Option (BitVec width) := if x < 2 ^ width then some (BitVec.ofNat width x) else none

/-- `bitCount` in its register of `COUNT_W` bits (R21). -/
def countRegister (w : Widths) (s : State) : Option (BitVec w.countW) := onBus w.countW s.bitCount

/-- `value` in its register of `VALUE_W` bits (R22). -/
def valueRegister (w : Widths) (s : State) : Option (BitVec w.valueW) := onBus w.valueW s.value

/-- `emit_valid` (R83). -/
def emitValid (o : Outputs) : Bool := o.emit.isSome

/-- `emit_n`, `COUNT_W` bits: no value where `emit_valid = 0` (R83). -/
def emitN (w : Widths) (o : Outputs) : Option (BitVec w.countW) := o.emit.bind fun c => onBus w.countW c.bitCount

/-- `emit_v`, `VALUE_W` bits: no value where `emit_valid = 0` (R83). -/
def emitV (w : Widths) (o : Outputs) : Option (BitVec w.valueW) := o.emit.bind fun c => onBus w.valueW c.value

/-- The `emit` port of a finite realisation (R83). In the reference model `emit_n` and `emit_v` are natural numbers, the
codeword of `Outputs.emit` itself. -/
structure EmitPort (w : Widths) where
  valid : Bool
  n : Option (BitVec w.countW)
  v : Option (BitVec w.valueW)
deriving DecidableEq, Repr

/-- The `emit` port in the step just taken (R83). -/
def emitPort (w : Widths) (o : Outputs) : EmitPort w := { valid := emitValid o, n := emitN w o, v := emitV w o }

/-- The FX result buses: one valid bit, and data buses driven to 0 when the format is unknown (R80). -/
structure FxBuses where
  valid : Bool
  facilityCode : Nat
  cardNumber : Nat
  cardNumberNoFacility : Nat
deriving DecidableEq, Repr

/-- The buses that carry a result (R80). -/
def fxBuses (r : FieldResult) : FxBuses :=
  { valid := r.known
    facilityCode := if r.known then r.facilityCode.getD 0 else 0
    cardNumber := if r.known then r.cardNumber.getD 0 else 0
    cardNumberNoFacility := if r.known then r.cardNumberNoFacility.getD 0 else 0 }

/-- The widest slice a selector picks in a table (R81). -/
def widestSlice (pick : Descriptor → Slice) : FormatTable → Nat
  | [] => 0
  | (_, d) :: t => max (sliceWidth (pick d)) (widestSlice pick t)

/-- The width of the `encoded` bus, `max(64, 2^FX_N_W)` (R7, R81). -/
def encodedBusWidth (w : Widths) : Nat := max 64 (2 ^ w.fxNW)

/-- The width of the bus `fx_v`, `max(VALUE_W, 2^FX_N_W − 1)` (R7). -/
def fxValueBusWidth (w : Widths) : Nat := max w.valueW (2 ^ w.fxNW - 1)

/-- The inputs a finite realisation's buses can carry (R7, R77); every input, in the reference model. The meaning of
EXTRACT does not depend on it. DESIGN CHOICE, log entry 7: safe. -/
def inputFits (c : Configuration) : Input → Bool
  | .ev _ _ => true
  | .fx n v =>
    match c.widths with
    | none => true
    | some w => decide (n < 2 ^ w.fxNW) && decide (v < 2 ^ fxValueBusWidth w)

end Sys2Proof.Machine
end

