-- ==== Sys2Proof/Machine/Ordering.lean ====
section
/-! DEFINITION. Which sequences of events FA may consume: the interleavings that keep each source's own order
(spec 20_memory.md R58; 60_exceptions.md R186, R188). -/

namespace Sys2Proof.Machine

/-- The three producers in front of the serialization boundary (R58, R186, R196). -/
inductive EventSource where
  | line (l : Line)
  | owner
deriving DecidableEq, Repr

/-- Who produces an operation: a reserved word is produced by no source (R182), and an FX request is no event. -/
def sourceOf : Instr → Option EventSource
  | .edge0 => some (.line .zeroLine)
  | .edge1 => some (.line .oneLine)
  | .tmo0 => some (.line .zeroLine)
  | .tmo1 => some (.line .oneLine)
  | .cancel => some .owner
  | .reserved101 => none
  | .reserved11x _ => none
  | .extract _ _ => none

/-- The events of one source in a sequence, in order. -/
def eventsOf (src : EventSource) (is : List Instr) : List Instr := is.filter fun i => decide (sourceOf i = some src)

/-- `is` interleaves the sequences `ez`, `eo` and `c` and keeps the order of each (R58). Every such `is` is a possible
execution. -/
def isInterleaving (ez eo c is : List Instr) : Bool :=
  decide (eventsOf (.line .zeroLine) is = ez) && decide (eventsOf (.line .oneLine) is = eo) &&
    decide (eventsOf .owner is = c) && is.all fun i => (sourceOf i).isSome

end Sys2Proof.Machine
end

