-- ==== Sys2Proof/Safety.lean ====
section
/-! DEFINITION. What counts as a safe state and a safe run: the invariants of spec 10_state.md R29, R30, the contract of
the outputs (30_encoding.md R83, R84), and the premise "no fault recorded" (10_state.md R26). -/

namespace Sys2Proof.Machine

/-- R29: while Idle, the frame registers are clear and no timer is armed. -/
abbrev State.IdleClear (s : State) : Prop :=
  s.state = .idle → s.bitCount = 0 ∧ s.value = 0 ∧ s.timeoutFlags = noLine ∧ s.armed = noLine

/-- R30: while Accumulating, FA is live, holds at least one bit and no more than `bitCount` bits, both timers are
armed, and not both flags are set. -/
abbrev State.FrameOpen (s : State) : Prop :=
  s.state = .accumulating →
    s.live = true ∧ 1 ≤ s.bitCount ∧ s.value < 2 ^ s.bitCount ∧ s.armed = bothLines ∧ s.timeoutFlags ≠ bothLines

/-- R83, R139: an emitted codeword has `0 < bitCount` and `value < 2^bitCount`. -/
abbrev Outputs.EmitContract (o : Outputs) : Prop :=
  ∀ c ∈ o.emit, 0 < c.bitCount ∧ c.value < 2 ^ c.bitCount

/-- R84: in one step no line receives both an arm and a disarm. -/
abbrev Outputs.OneCommand (o : Outputs) : Prop :=
  ¬ (getLine o.arm .zeroLine = true ∧ getLine o.disarm .zeroLine = true) ∧
    ¬ (getLine o.arm .oneLine = true ∧ getLine o.disarm .oneLine = true)

/-- The invariant of every reachable state: R29, R30, the output contracts, and the canonical form of the fault set. -/
abbrev State.Inv (s : State) : Prop :=
  s.IdleClear ∧ s.FrameOpen ∧ s.out.EmitContract ∧ s.out.OneCommand ∧ faultsWf s.faults = true

/-- A `ValueOverflow` record (R183). -/
def isOverflow : FaultRecord → Bool
  | .valueOverflow _ => true
  | .reservedEvent _ => false

/-- R8, R107: in a finite realisation with widths in R7's bounds, the frame is within `VALUE_W` bits, or its overflow is
recorded: never silent. -/
abbrev State.WidthKeptOrRecorded (s : State) : Prop :=
  ∀ w ∈ s.cfg.widths, widthsWf w = true → s.bitCount ≤ w.valueW ∨ s.faults.any isOverflow = true

/-- "No fault recorded" (R26). -/
abbrev State.NoFaultRecorded (s : State) : Prop := s.faults = []

/-- No FA output is asserted (R103). -/
abbrev Outputs.Silent (o : Outputs) : Prop := o.emit = Option.none ∧ o.arm = noLine ∧ o.disarm = noLine

/-- The registers of FA that the rules compute with: R20 to R25, without the model-only record. -/
structure FaRegs where
  state : Ctl
  bitCount : Nat
  value : Nat
  timeoutFlags : LineBits
  armed : LineBits
  live : Bool
deriving DecidableEq, Repr

/-- The registers R20 to R25 of a state. -/
def State.regs (s : State) : FaRegs :=
  { state := s.state
    bitCount := s.bitCount
    value := s.value
    timeoutFlags := s.timeoutFlags
    armed := s.armed
    live := s.live }

/-- The registers after construction, completion and teardown: Idle and clear, with this `live` bit. -/
def clearRegs (live : Bool) : FaRegs :=
  { state := .idle, bitCount := 0, value := 0, timeoutFlags := noLine, armed := noLine, live := live }

/-- The same state with no width bounded: the reference model's state beside a finite realisation's (R8). -/
def asReference (s : State) : State := { s with cfg := { s.cfg with widths := none } }

/-- The string `s` with the characters of a slice replaced by those of `t` (R164). -/
def placeBits (s : BitString) (sl : Slice) (t : BitString) : BitString := s.take sl.a ++ t ++ s.drop (sl.b + 1)

/-- Two slices share no index (R164). -/
abbrev slicesDisjoint (x y : Slice) : Prop := x.b < y.a ∨ y.b < x.a

end Sys2Proof.Machine
end

