-- ==== Sys2Proof/Certificates/Slice0/Obligations.lean ====
section
/-! DEFINITION. The statements about CORE for the provers. Each docstring names the rule of spec/ it formalises. -/

open Sys2Proof Sys2Proof.Machine

/-- R73: each of the eight event words, written out, is one of the five operations or reserved. -/
def Obligations.EventWordsDecodeByTheOpcodeMap : Prop :=
  decode (.ev 0b000 []) = .ok .edge0 ∧
  decode (.ev 0b001 []) = .ok .edge1 ∧
  decode (.ev 0b010 []) = .ok .tmo0 ∧
  decode (.ev 0b011 []) = .ok .tmo1 ∧
  decode (.ev 0b100 []) = .ok .cancel ∧
  decode (.ev 0b101 []) = .ok .reserved101 ∧
  decode (.ev 0b110 []) = .ok (.reserved11x .zeroLine) ∧
  decode (.ev 0b111 []) = .ok (.reserved11x .oneLine)

/-- R73, R77: decoding what `encode` presents gives the instruction back, for every instruction and every operand, and
an input that decodes to an instruction is the one `encode` presents for it. -/
def Obligations.DecodeAndEncodeAgree : Prop :=
  (∀ i, decode (encode i) = .ok i) ∧ (∀ inp i, decode inp = .ok i → encode i = inp)

/-- R31, R57, R100: where the next input decodes to an instruction, the step is `exec` of it at the state with that
input consumed. The input stream is the model's own field (log entry 1). -/
def Obligations.StepRunsTheDecodedInstruction : Prop :=
  ∀ (s : State) (inp : Input) (rest : List Input) (i : Instr),
    s.stream = inp :: rest → decode inp = .ok i → step s = exec i { s with stream := rest }

/-- R220: more than one event word presented in one step is refused. -/
def Obligations.SimultaneousEventsAreRefused : Prop :=
  ∀ (s : State) (w w' : EventWord) (ws : List EventWord) (rest : List Input),
    s.stream = .ev w (w' :: ws) :: rest → step s = .refused (.simultaneousEvents w (w' :: ws))

/-- R198, R211, R103: with no event delivered, FA holds its state and asserts no output. That such a step is taken at
all, and that it holds no FX result (R157), are the model's choices (log entries 1 and 3). -/
def Obligations.WaitingHoldsTheState : Prop :=
  ∀ s : State, s.stream = [] →
    ∃ t, step s = .next t ∧ t.regs = s.regs ∧ t.faults = s.faults ∧ t.out.Silent ∧ t.out.fx = none ∧
      t.cfg = s.cfg ∧ t.stream = []

/-- R41, R210, R32: construction sets every field and output to its reset value, and the instance has the configuration
it was constructed with. That the configuration and FX's output are fields of State is the model's choice (log entries 2
and 3). -/
def Obligations.ConstructionSetsTheResetValues : Prop :=
  ∀ c : Configuration, configurationWf c = true →
    ∃ t, construct c = .next t ∧ t.state = .idle ∧ t.bitCount = 0 ∧ t.value = 0 ∧ t.timeoutFlags = noLine ∧
      t.armed = noLine ∧ t.live = true ∧ t.faults = [] ∧ t.out.Silent ∧ t.out.fx = none ∧ t.cfg = c

/-- R210: the state after reset is that of a construction, with a well-formed configuration. The configuration itself
is the model's choice within R7 (log entries 4, 5 and 6). -/
def Obligations.ResetIsAConstruction : Prop :=
  configurationWf State.reset.cfg = true ∧ construct State.reset.cfg = .next State.reset

/-- R213, R214: construction refuses equal line identifiers, a window of 0 and an ill-formed format table. The EXTRACT
clause is the model's choice (log entry 10, DEDUCED): EXTRACT checks the whole table at every request, counts a key
listed twice as ill-formed, and answers `illFormedConfiguration`. -/
def Obligations.IllFormedConfigurationsAreRefused : Prop :=
  (∀ c : Configuration, c.lineIdZero = c.lineIdOne ∨ c.tMs = 0 ∨ fmtWf c.fmt = false →
    construct c = .refused .illFormedConfiguration) ∧
  (∀ (s : State) (n v : Nat), v < 2 ^ n → fmtWf s.cfg.fmt = false →
    exec (.extract n v) s = .refused .illFormedConfiguration)

/-- R105: an edge while Idle and live starts a frame with its data bit and arms both timers. -/
def Obligations.EdgeWhileIdleStartsAFrame : Prop :=
  ∀ (s : State) (l : Line), s.live = true → s.state = .idle →
    ∃ t, exec (edgeOp l) s = .next t ∧
      t.regs = { s.regs with
        state := .accumulating, bitCount := 1, value := dataBit l, timeoutFlags := noLine, armed := bothLines } ∧
      t.faults = s.faults ∧ t.out.emit = none ∧ t.out.arm = bothLines ∧ t.out.disarm = noLine

/-- R106: an edge while Accumulating and live appends its data bit, clears its own line's flag only, asserts no output,
and records `ValueOverflow` exactly where the new count exceeds a finite `VALUE_W`. -/
def Obligations.EdgeWhileAccumulatingAppendsItsBit : Prop :=
  ∀ (s : State) (l : Line), s.live = true → s.state = .accumulating →
    ∃ t, exec (edgeOp l) s = .next t ∧
      t.regs = { s.regs with
        bitCount := s.bitCount + 1
        value := (s.value <<< 1) ||| dataBit l
        timeoutFlags := setLine s.timeoutFlags l false } ∧
      (∀ r, r ∈ t.faults ↔ r ∈ s.faults ∨
        ((∃ w, s.cfg.widths = some w ∧ w.valueW < s.bitCount + 1) ∧ r = .valueOverflow (s.bitCount + 1))) ∧
      t.out.Silent

/-- R183: a `ValueOverflow` record is new after an instruction only where an edge appended a bit in a finite
realisation and made `bitCount` exceed `VALUE_W`; there it is recorded, with the new count. -/
def Obligations.OverflowIsRecordedExactlyBeyondTheWidth : Prop :=
  ∀ (i : Instr) (s t : State) (n : Nat), exec i s = .next t →
    (.valueOverflow n ∈ t.faults ↔
      .valueOverflow n ∈ s.faults ∨
        ((∃ l, i = edgeOp l) ∧ s.live = true ∧ s.state = .accumulating ∧ t.bitCount = s.bitCount + 1 ∧
          n = t.bitCount ∧ ∃ w, s.cfg.widths = some w ∧ w.valueW < t.bitCount))

/-- R101: while not live, the four line events change nothing and assert no output. -/
def Obligations.DetachedLineEventsChangeNothing : Prop :=
  ∀ (s : State) (l : Line), s.live = false →
    (∃ t, exec (edgeOp l) s = .next t ∧ t.regs = s.regs ∧ t.faults = s.faults ∧ t.out.Silent) ∧
    (∃ t, exec (timeoutOp l) s = .next t ∧ t.regs = s.regs ∧ t.faults = s.faults ∧ t.out.Silent)

/-- R117: a timeout while Idle and live changes nothing and asserts no output. -/
def Obligations.TimeoutWhileIdleChangesNothing : Prop :=
  ∀ (s : State) (l : Line), s.live = true → s.state = .idle →
    ∃ t, exec (timeoutOp l) s = .next t ∧ t.regs = s.regs ∧ t.faults = s.faults ∧ t.out.Silent

/-- R115, R116: a timeout while Accumulating and live computes `F'`, the flags with its own one set. Where `F'` is not
`11` it writes `F'` and asserts nothing; where it is, both timers are disarmed, the codeword as it stood is emitted, and
all frame state is cleared. -/
def Obligations.TimeoutSetsItsFlagOrCompletesTheFrame : Prop :=
  ∀ (s : State) (l : Line), s.live = true → s.state = .accumulating →
    ∃ t, exec (timeoutOp l) s = .next t ∧ t.faults = s.faults ∧
      (setLine s.timeoutFlags l true ≠ bothLines →
        t.regs = { s.regs with timeoutFlags := setLine s.timeoutFlags l true } ∧ t.out.Silent) ∧
      (setLine s.timeoutFlags l true = bothLines →
        t.regs = clearRegs true ∧ t.out.emit = some { bitCount := s.bitCount, value := s.value } ∧
          t.out.arm = noLine ∧ t.out.disarm = bothLines)

/-- R120, R121, R192: a repeated timeout of a line, with the other line's flag clear, leaves what one leaves. -/
def Obligations.RepeatedTimeoutIsIdempotent : Prop :=
  ∀ (s t : State) (l : Line), getLine s.timeoutFlags (otherLine l) = false → exec (timeoutOp l) s = .next t →
    exec (timeoutOp l) t = .next t

/-- R130: CANCEL, the word 100, while live disarms the armed timers, drops the frame, emits nothing and clears `live`; while not live
it changes nothing, so a second one has no effect; and nothing returns `live` to 1. -/
def Obligations.CancelDetachesOnce : Prop :=
  decode (.ev 0b100 []) = .ok .cancel ∧
  (∀ s : State, s.live = true →
    ∃ t, exec .cancel s = .next t ∧ t.regs = clearRegs false ∧ t.faults = s.faults ∧ t.out.emit = none ∧
      t.out.arm = noLine ∧ t.out.disarm = s.armed ∧ (s.state = .idle → s.IdleClear → t.out.disarm = noLine)) ∧
  (∀ s : State, s.live = false →
    ∃ t, exec .cancel s = .next t ∧ t.regs = s.regs ∧ t.faults = s.faults ∧ t.out.Silent) ∧
  (∀ (i : Instr) (s t : State), s.live = false → exec i s = .next t → t.live = false)

/-- R74, R182: the words 101, 110 and 111 record `ReservedEvent` with the word, change no register and assert no output.
That they do so while `live` is 0 too is the model's reading of R74 and R100 against R212's 'ignores every later event'
(log entry 9, DEDUCED, unsafe). -/
def Obligations.ReservedWordsOnlyRecordAFault : Prop :=
  ∀ (s : State) (w : EventWord) (i : Instr),
    (w, i) ∈ [((0b101 : EventWord), Instr.reserved101), (0b110, .reserved11x .zeroLine), (0b111, .reserved11x .oneLine)] →
    decode (.ev w []) = .ok i ∧
    ∃ t, exec i s = .next t ∧ t.regs = s.regs ∧ (∀ r, r ∈ t.faults ↔ r ∈ s.faults ∨ r = .reservedEvent w) ∧
      t.out.Silent

/-- R102: a recorded fault gates nothing. The same instruction, with any other record, leaves the same registers and the
same outputs, and keeps the record. -/
def Obligations.RecordedFaultsGateNothing : Prop :=
  ∀ (i : Instr) (s t : State) (f : List FaultRecord), exec i s = .next t →
    ∃ t', exec i { s with faults := f } = .next t' ∧ t'.regs = t.regs ∧ t'.out = t.out ∧ ∀ r ∈ f, r ∈ t'.faults

/-- R150: EXTRACT within the contract answers the `FieldResult` of its stages and changes no register. That the result
stands in `out.fx` is the model's choice (log entry 3), and the premise on the table is R213's. -/
def Obligations.ExtractReturnsTheFieldResult : Prop :=
  ∀ (s : State) (n v : Nat), v < 2 ^ n → fmtWf s.cfg.fmt = true →
    ∃ t r, exec (.extract n v) s = .next t ∧ t.regs = s.regs ∧ t.faults = s.faults ∧ t.out.Silent ∧
      t.out.fx = some r ∧ r.raw = bin n v ∧ r.encoded = parseU r.full ∧ r.encodedLen = r.full.length ∧
      r.hex = hex (max 16 ((r.full.length + 3) / 4)) r.encoded ∧
      (∀ d, fmtLookup s.cfg.fmt n = some d → r.known = true ∧
        r.facilityCode = some (parseU (substring r.raw d.fc)) ∧
        r.cardNumber = some (parseU (substring r.raw d.cn)) ∧
        r.cardNumberNoFacility = some (parseU (substring r.raw d.cnnf)) ∧ r.full = d.header ++ r.raw) ∧
      (fmtLookup s.cfg.fmt n = none → r.known = false ∧ r.facilityCode = none ∧ r.cardNumber = none ∧
        r.cardNumberNoFacility = none ∧ r.full = false :: r.raw)

/-- R184: a request with `v ≥ 2^n` is refused as `ExtractOutOfContract`, refusal code 3, with `(n, v)`. -/
def Obligations.ExtractOutOfContractIsRefused : Prop :=
  ∀ (s : State) (n v : Nat), 2 ^ n ≤ v →
    exec (.extract n v) s = .refused (.extractOutOfContract n v) ∧ refusalCode (.extractOutOfContract n v) = some 3

/-- R34, R157: the result of FX depends on the request and the table alone. -/
def Obligations.ExtractDependsOnRequestAndTableOnly : Prop :=
  ∀ (s s' t t' : State) (n v : Nat), s.cfg.fmt = s'.cfg.fmt → exec (.extract n v) s = .next t →
    exec (.extract n v) s' = .next t' → t.out.fx = t'.out.fx

/-- R153: each field of a known format is the value of its inclusive slice of `raw`, and equals the bit field
`v[n−1−a : n−1−b]` of `b − a + 1` bits; the header shifts no slice. -/
def Obligations.FieldsAreBitFieldsOfTheValue : Prop :=
  ∀ (fmt : FormatTable) (n v : Nat) (d : Descriptor), fmtWf fmt = true → v < 2 ^ n → fmtLookup fmt n = some d →
    (extractFields fmt n v).facilityCode = some (parseU (substring (bin n v) d.fc)) ∧
    (extractFields fmt n v).cardNumber = some (parseU (substring (bin n v) d.cn)) ∧
    (extractFields fmt n v).cardNumberNoFacility = some (parseU (substring (bin n v) d.cnnf)) ∧
    ∀ sl ∈ [d.fc, d.cn, d.cnnf],
      parseU (substring (bin n v) sl) = bitField v (n - 1 - sl.a) (n - 1 - sl.b) ∧
      (substring (bin n v) sl).length = sl.b - sl.a + 1

/-- R152, R156, R80: `known` holds exactly for the keys of the table, which for a v7 table are 26, 35 and 37; an unknown
length gives no field, the header `0`, and buses driven to 0 with the valid bit clear. -/
def Obligations.UnknownLengthsGiveNoFields : Prop :=
  (∀ (fmt : FormatTable) (n v : Nat), (extractFields fmt n v).known = true ↔ fmtLookup fmt n ≠ none) ∧
  (∀ (fmt : FormatTable) (n v : Nat), fmtWf fmt = true → fmtIsV7 fmt = true →
    ((extractFields fmt n v).known = true ↔ n = 26 ∨ n = 35 ∨ n = 37)) ∧
  (∀ (fmt : FormatTable) (n v : Nat), (extractFields fmt n v).known = false →
    (extractFields fmt n v).facilityCode = none ∧ (extractFields fmt n v).cardNumber = none ∧
    (extractFields fmt n v).cardNumberNoFacility = none ∧ (extractFields fmt n v).full = false :: bin n v ∧
    fxBuses (extractFields fmt n v) =
      { valid := false, facilityCode := 0, cardNumber := 0, cardNumberNoFacility := 0 })

/-- R155, R158: `encoded` is the header's value above the codeword for a known format, in 64 bits, and the codeword's
value for an unknown one, in `n + 1` bits. -/
def Obligations.EncodedIsTheHeaderAboveTheValue : Prop :=
  ∀ (fmt : FormatTable) (n v : Nat), fmtWf fmt = true → v < 2 ^ n →
    (∀ d, fmtLookup fmt n = some d →
      (extractFields fmt n v).encoded = parseU d.header * 2 ^ n + v ∧ (extractFields fmt n v).encodedLen = 64) ∧
    (fmtLookup fmt n = none →
      (extractFields fmt n v).encoded = v ∧ (extractFields fmt n v).encodedLen = n + 1)

/-- R82, R155: the hexadecimal string has `max(16, ⌈encodedLen/4⌉)` characters, each an uppercase digit, and read back
it gives `encoded`: nothing is truncated. -/
def Obligations.HexLosesNothing : Prop :=
  ∀ (fmt : FormatTable) (n v : Nat),
    (extractFields fmt n v).hex.length = max 16 (((extractFields fmt n v).encodedLen + 3) / 4) ∧
    (∀ c ∈ (extractFields fmt n v).hex, ('0' ≤ c ∧ c ≤ '9') ∨ ('A' ≤ c ∧ c ≤ 'F')) ∧
    digitsValue 16 0 (extractFields fmt n v).hex = some (extractFields fmt n v).encoded

/-- R163: each field of a known format is below 2 to the width of its slice; under the default table of R160 to R162
(the spec's own choice) the ranges are those of R163's table, and `encoded = 2^n + v`. -/
def Obligations.FieldRangesFollowTheSlices : Prop :=
  (∀ (fmt : FormatTable) (n v : Nat) (d : Descriptor), fmtWf fmt = true → v < 2 ^ n → fmtLookup fmt n = some d →
    (∀ x ∈ (extractFields fmt n v).facilityCode, x ≤ 2 ^ (d.fc.b - d.fc.a + 1) - 1) ∧
    (∀ x ∈ (extractFields fmt n v).cardNumber, x ≤ 2 ^ (d.cn.b - d.cn.a + 1) - 1) ∧
    (∀ x ∈ (extractFields fmt n v).cardNumberNoFacility, x ≤ 2 ^ (d.cnnf.b - d.cnnf.a + 1) - 1)) ∧
  (∀ n f c k : Nat, (n, f, c, k) ∈ [(26, 255, 65535, 16777215), (35, 4095, 1048575, 4294967295),
      (37, 65535, 524287, 34359738367)] → ∀ v, v < 2 ^ n →
    (∃ x, (extractFields defaultFmt n v).facilityCode = some x ∧ x ≤ f) ∧
    (∃ x, (extractFields defaultFmt n v).cardNumber = some x ∧ x ≤ c) ∧
    (∃ x, (extractFields defaultFmt n v).cardNumberNoFacility = some x ∧ x ≤ k) ∧
    (extractFields defaultFmt n v).encoded = 2 ^ n + v)

/-- R164: a string built by placing `bin(fc)` and `bin(cn)` at their slices, with any bits elsewhere, decodes to that
`fc` and `cn` where the two slices do not overlap; they do not in the default table. -/
def Obligations.FieldRoundTrip : Prop :=
  (∀ (fmt : FormatTable) (n fc cn : Nat) (d : Descriptor) (bits : BitString),
    fmtWf fmt = true → fmtLookup fmt n = some d → slicesDisjoint d.fc d.cn → bits.length = n →
    fc < 2 ^ sliceWidth d.fc → cn < 2 ^ sliceWidth d.cn →
    let raw := placeBits (placeBits bits d.fc (bin (sliceWidth d.fc) fc)) d.cn (bin (sliceWidth d.cn) cn)
    parseU raw < 2 ^ n ∧ (extractFields fmt n (parseU raw)).facilityCode = some fc ∧
      (extractFields fmt n (parseU raw)).cardNumber = some cn) ∧
  (∀ e ∈ defaultFmt, slicesDisjoint e.2.fc e.2.cn)

/-- R165: FX checks no parity. Bits outside every slice are read by no field, and a codeword is rejected for none of its
bits. -/
def Obligations.BitsOutsideTheSlicesAreNotRead : Prop :=
  (∀ (fmt : FormatTable) (n v v' : Nat) (d : Descriptor), fmtWf fmt = true → v < 2 ^ n → v' < 2 ^ n →
    fmtLookup fmt n = some d →
    (∀ sl ∈ [d.fc, d.cn, d.cnnf], ∀ j, sl.a ≤ j → j ≤ sl.b → (bin n v)[j]? = (bin n v')[j]?) →
    (extractFields fmt n v).facilityCode = (extractFields fmt n v').facilityCode ∧
    (extractFields fmt n v).cardNumber = (extractFields fmt n v').cardNumber ∧
    (extractFields fmt n v).cardNumberNoFacility = (extractFields fmt n v').cardNumberNoFacility) ∧
  (∀ (s : State) (n v : Nat), fmtWf s.cfg.fmt = true → v < 2 ^ n → ∃ t, exec (.extract n v) s = .next t)

/-- R25, R26, R32, R33: no instruction writes the configuration or the table, none removes a fault record, none sets
`live`, and none touches the inputs still to come. -/
def Obligations.NoInstructionWritesConfigurationOrRevives : Prop :=
  ∀ (i : Instr) (s t : State), exec i s = .next t →
    t.cfg = s.cfg ∧ t.stream = s.stream ∧ (∀ r ∈ s.faults, r ∈ t.faults) ∧ (t.live = true → s.live = true) ∧
    (s.live = false → t.regs = s.regs)

/-- The frame of each instruction, when `exec` gives a next state. Edges leave `live` and every `ReservedEvent` record,
and in an open frame also `state`, `armed` and the other line's flag; timeouts leave `live` and the records; CANCEL
leaves the records; reserved words leave every register and every `ValueOverflow` record; EXTRACT leaves everything but
the outputs. All leave the configuration and the inputs still to come. There is no memory (R50). -/
def Obligations.FrameOfEachInstruction : Prop :=
  (∀ (l : Line) (s t : State), exec (edgeOp l) s = .next t →
    t.live = s.live ∧ (∀ w, .reservedEvent w ∈ t.faults ↔ .reservedEvent w ∈ s.faults) ∧ t.cfg = s.cfg ∧
    t.stream = s.stream ∧
    (s.state = .accumulating → t.state = s.state ∧ t.armed = s.armed ∧
      getLine t.timeoutFlags (otherLine l) = getLine s.timeoutFlags (otherLine l))) ∧
  (∀ (l : Line) (s t : State), exec (timeoutOp l) s = .next t →
    t.live = s.live ∧ t.faults = s.faults ∧ t.cfg = s.cfg ∧ t.stream = s.stream ∧
    (getLine s.timeoutFlags (otherLine l) = false → t.state = s.state ∧ t.bitCount = s.bitCount ∧
      t.value = s.value ∧ t.armed = s.armed ∧ getLine t.timeoutFlags (otherLine l) = false)) ∧
  (∀ s t : State, exec .cancel s = .next t → t.faults = s.faults ∧ t.cfg = s.cfg ∧ t.stream = s.stream) ∧
  (∀ (i : Instr) (s t : State), i = .reserved101 ∨ (∃ l, i = .reserved11x l) → exec i s = .next t →
    t.regs = s.regs ∧ (∀ n, .valueOverflow n ∈ t.faults ↔ .valueOverflow n ∈ s.faults) ∧ t.cfg = s.cfg ∧
    t.stream = s.stream) ∧
  (∀ (n v : Nat) (s t : State), exec (.extract n v) s = .next t →
    t.regs = s.regs ∧ t.faults = s.faults ∧ t.cfg = s.cfg ∧ t.stream = s.stream)

/-- R29, R30, with R83, R84 and the canonical form of the fault set: every step keeps the invariant, from every state
that meets it. -/
def Obligations.EveryStepKeepsTheInvariant : Prop :=
  ∀ s t : State, s.Inv → step s = .next t → t.Inv

/-- R29, R30, R41: every constructed state, the reset state among them, meets the invariant. -/
def Obligations.ConstructedStatesMeetTheInvariant : Prop :=
  State.reset.Inv ∧ ∀ (c : Configuration) (t : State), construct c = .next t → t.Inv

/-- R137, R139: an instruction emits only if it is a timeout of one line while live and Accumulating with the other
line's flag set; it emits the codeword as it stood, leaves Idle, and in a state that meets the invariant the codeword
has at least one bit and no more bits than its count. -/
def Obligations.EmissionNeedsBothTimeouts : Prop :=
  ∀ (i : Instr) (s t : State) (c : Codeword), exec i s = .next t → t.out.emit = some c →
    (∃ l, i = timeoutOp l ∧ getLine s.timeoutFlags (otherLine l) = true) ∧ s.live = true ∧ s.state = .accumulating ∧
    c = { bitCount := s.bitCount, value := s.value } ∧ t.state = .idle ∧
    (s.Inv → 0 < c.bitCount ∧ c.value < 2 ^ c.bitCount)

/-- R61, R137: from Idle, no sequence of operations without an edge emits anything; so no frame is emitted twice. -/
def Obligations.NoEmissionWithoutAnEdge : Prop :=
  ∀ (is : List Instr) (s : State), s.state = .idle → .edge0 ∉ is → .edge1 ∉ is → emitted is s = []

/-- R103, R84, R157: `arm` is asserted only by an edge that starts a frame, `disarm` only by a completing timeout or by
CANCEL for the armed timers, and never both in one step; an FX result stands only after an EXTRACT, and it is that
request's, so none is kept from an earlier step. The output of FX in State is the model's choice (log entry 3). -/
def Obligations.TimerCommandsComeFromTheirRulesOnly : Prop :=
  ∀ (i : Instr) (s t : State), exec i s = .next t →
    (t.out.arm ≠ noLine → (∃ l, i = edgeOp l) ∧ s.live = true ∧ s.state = .idle ∧ t.out.arm = bothLines) ∧
    (t.out.disarm ≠ noLine → s.live = true ∧
      ((∃ l, i = timeoutOp l ∧ getLine s.timeoutFlags (otherLine l) = true ∧ s.state = .accumulating ∧
        t.out.disarm = bothLines) ∨ (i = .cancel ∧ t.out.disarm = s.armed))) ∧
    (t.out.arm = noLine ∨ t.out.disarm = noLine) ∧
    (∀ r, t.out.fx = some r ↔ ∃ n v, i = .extract n v ∧ r = extractFields s.cfg.fmt n v)

/-- R52, R53: after the bits `b_1 … b_n` in arrival order, `value` is their most-significant-first value, and bit `b_i`
sits at `value[n−i]`. -/
def Obligations.FirstBitReceivedIsMostSignificant : Prop :=
  ∀ (s : State) (bits : BitString), s.live = true → s.state = .idle → bits ≠ [] →
    ∃ t, runOps (edgesOf bits) s = .next t ∧ t.state = .accumulating ∧ t.bitCount = bits.length ∧
      t.value = parseU bits ∧ (∀ i, i < bits.length → bits[i]? = some (t.value.testBit (bits.length - 1 - i))) ∧
      bin t.bitCount t.value = bits

/-- R135: `n ≥ 1` edges and then both timeouts, in either order, emit exactly one codeword, of `n` bits and the
most-significant-first value, and end Idle with the frame cleared; no fault is recorded where `n` fits `VALUE_W`. R135
needs `n ≤ VALUE_W` in a finite realisation: that the emission is the reference model's past the width too (R107) is the
model's choice (log entry 7). -/
def Obligations.FrameLaw : Prop :=
  ∀ (s : State) (bits : BitString) (l : Line), s.live = true → s.state = .idle → bits ≠ [] →
    emitted (edgesOf bits ++ [timeoutOp l, timeoutOp (otherLine l)]) s =
      [{ bitCount := bits.length, value := parseU bits }] ∧
    ∃ t, runOps (edgesOf bits ++ [timeoutOp l, timeoutOp (otherLine l)]) s = .next t ∧ t.regs = clearRegs true ∧
      (exceedsValueW s.cfg bits.length = false → t.faults = s.faults)

/-- R136: one edge and both timeouts, in either order, emit exactly `(1, b(l))`, which FX classifies as unknown under a
v7 table. -/
def Obligations.OneBitLaw : Prop :=
  ∀ (s : State) (l l' : Line), s.live = true → s.state = .idle →
    emitted [edgeOp l, timeoutOp l', timeoutOp (otherLine l')] s = [{ bitCount := 1, value := dataBit l }] ∧
    (fmtWf s.cfg.fmt = true → fmtIsV7 s.cfg.fmt = true → (extractFields s.cfg.fmt 1 (dataBit l)).known = false)

/-- R138: with the other line's flag set and not cleared, any number of edges of line `l` and then its timeout complete
the frame, without a fresh timeout of the other line; the rule's own example emits `(3, 7)`. -/
def Obligations.TerminationNeedsNoFreshTimeout : Prop :=
  (∀ (s : State) (l : Line) (k : Nat), s.live = true → s.state = .accumulating →
    getLine s.timeoutFlags (otherLine l) = true →
    emitted (List.replicate k (edgeOp l) ++ [timeoutOp l]) s =
      [{ bitCount := s.bitCount + k, value := s.value * 2 ^ k + dataBit l * (2 ^ k - 1) }]) ∧
  (∀ s : State, s.live = true → s.state = .idle →
    emitted [.edge1, .tmo0, .edge1, .edge1, .tmo1] s = [{ bitCount := 3, value := 7 }])

/-- R212: after cancellation the instance stays not live, its registers stay as they are, and it emits nothing, whatever
inputs follow. -/
def Obligations.CancelledInstanceStaysDetached : Prop :=
  ∀ (k : Nat) (s : State), s.live = false →
    emissions k s = [] ∧ ∀ t : State, Sys2Proof.core.run k s = .next t → t.live = false ∧ t.regs = s.regs

/-- R222: CANCEL and an in-flight line event leave the same registers in either order; the event adds only the emission
it makes by itself, and after CANCEL it emits nothing. -/
def Obligations.CancellationRaceLeavesNoPartialEmission : Prop :=
  ∀ (s : State) (i : Instr), i ∈ [Instr.edge0, .edge1, .tmo0, .tmo1] → s.live = true →
    ∃ t u : State, runOps [i, .cancel] s = .next t ∧ runOps [.cancel, i] s = .next u ∧
      t.regs = clearRegs false ∧ u.regs = clearRegs false ∧
      emitted [i, .cancel] s = emitted [i] s ∧ emitted [.cancel, i] s = []

/-- R59: after `EDGE0, TMO0`, the pair `TMO1` and `EDGE0` gives different codewords in its two orders, both of which
are interleavings of the same sources. -/
def Obligations.InterleavingCanDecideTheCodeword : Prop :=
  ∀ s : State, s.live = true → s.state = .idle →
    emitted [.edge0, .tmo0, .tmo1, .edge0] s = [{ bitCount := 1, value := 0 }] ∧
    emitted [.edge0, .tmo0, .edge0, .tmo1] s = [] ∧
    (∃ t, runOps [.edge0, .tmo0, .tmo1, .edge0] s = .next t ∧ t.state = .accumulating ∧ t.bitCount = 1) ∧
    (∃ t, runOps [.edge0, .tmo0, .edge0, .tmo1] s = .next t ∧ t.state = .accumulating ∧ t.bitCount = 2) ∧
    isInterleaving [.edge0, .tmo0, .edge0] [.tmo1] [] [.edge0, .tmo0, .tmo1, .edge0] = true ∧
    isInterleaving [.edge0, .tmo0, .edge0] [.tmo1] [] [.edge0, .tmo0, .edge0, .tmo1] = true

/-- R59: two timeouts on different lines leave the same registers and emit the same codewords in either order. -/
def Obligations.TimeoutsOfBothLinesCommute : Prop :=
  ∀ s : State,
    emitted [.tmo0, .tmo1] s = emitted [.tmo1, .tmo0] s ∧
    ∃ t u : State, runOps [.tmo0, .tmo1] s = .next t ∧ runOps [.tmo1, .tmo0] s = .next u ∧ t.regs = u.regs

/-- R223: within one line the order decides whether the bit belongs to the frame: with the other line's flag set, an
edge before the timeout is part of the emitted codeword, and after it opens a new frame. -/
def Obligations.PerLineOrderDecidesTheFrame : Prop :=
  ∀ (s : State) (l : Line), s.live = true → s.state = .accumulating → getLine s.timeoutFlags (otherLine l) = true →
    emitted [edgeOp l, timeoutOp l] s =
      [{ bitCount := s.bitCount + 1, value := (s.value <<< 1) ||| dataBit l }] ∧
    emitted [timeoutOp l, edgeOp l] s = [{ bitCount := s.bitCount, value := s.value }] ∧
    (∃ t, runOps [edgeOp l, timeoutOp l] s = .next t ∧ t.state = .idle) ∧
    (∃ t, runOps [timeoutOp l, edgeOp l] s = .next t ∧ t.state = .accumulating ∧ t.bitCount = 1 ∧ t.value = dataBit l)

/-- R230: once both lines are silent, timeouts alone, at least one of each line in any order and number, emit exactly
the open frame. -/
def Obligations.SilentLinesEmitTheOpenFrame : Prop :=
  ∀ (is : List Instr) (s : State), s.live = true → s.state = .accumulating → s.timeoutFlags ≠ bothLines →
    (∀ i ∈ is, i = .tmo0 ∨ i = .tmo1) → .tmo0 ∈ is → .tmo1 ∈ is →
    emitted is s = [{ bitCount := s.bitCount, value := s.value }]

/-- R13, R58: the run of a sequence of operations is the sequential rules applied to it: running `a` and then `b` is
running their concatenation, in the state left and in what is emitted. -/
def Obligations.RunsFollowTheChosenInterleaving : Prop :=
  ∀ (a b : List Instr) (s t : State), runOps a s = .next t →
    runOps (a ++ b) s = runOps b t ∧ emitted (a ++ b) s = emitted a s ++ emitted b t

/-- R8, R107: a finite realisation agrees with the reference model bit for bit, in the registers, the outputs and the
emissions of every run, and on an instruction that leaves `bitCount` within `VALUE_W` also in the fault record. R8 gives
the agreement for frames of at most `VALUE_W` bits, and R107 allows no claim on an instance's `value` or emissions once
the fault is recorded: agreement on every run, past the width too, is the model's choice (log entry 7). -/
def Obligations.FiniteRealisationAgreesWithTheReference : Prop :=
  (∀ (k : Nat) (s : State), emissions k s = emissions k (asReference s)) ∧
  (∀ (k : Nat) (s t : State), Sys2Proof.core.run k s = .next t →
    ∃ t' : State, Sys2Proof.core.run k (asReference s) = .next t' ∧ t'.regs = t.regs ∧ t'.out = t.out) ∧
  (∀ (i : Instr) (s t : State), exec i s = .next t → exceedsValueW s.cfg t.bitCount = false →
    exec i (asReference s) = .next (asReference t))

/-- R78: an emitted codeword presented as an FX request is within the contract, so EXTRACT answers it. -/
def Obligations.EmittedCodewordsCanBeExtracted : Prop :=
  ∀ (s t : State) (c : Codeword), s.Inv → fmtWf s.cfg.fmt = true → step s = .next t → t.out.emit = some c →
    ∃ u, exec (.extract c.bitCount c.value) t = .next u

/-- R87: the pseudo-instructions expand to the operations shown, BITS and FRAME are refused exactly for an empty literal
or one with a character other than `0` and `1`, and FRAME from Idle and live emits exactly `(|s|, parseU(s))`. -/
def Obligations.PseudoInstructionsExpandAsTabled : Prop :=
  (∀ cs : List Char, expand (.bits cs) = none ↔ cs = [] ∨ ∃ c ∈ cs, c ≠ '0' ∧ c ≠ '1') ∧
  (∀ (cs : List Char) (is : List Instr), expand (.bits cs) = some is → is.length = cs.length ∧
    ∀ j : Nat, (cs[j]? = some '0' → is[j]? = some .edge0) ∧ (cs[j]? = some '1' → is[j]? = some .edge1)) ∧
  expand .endZeroOne = some [.tmo0, .tmo1] ∧
  expand .endOneZero = some [.tmo1, .tmo0] ∧
  (∀ cs : List Char, expand (.frame cs) = (expand (.bits cs)).map (· ++ [.tmo0, .tmo1])) ∧
  (∀ cs : List Char, expand (.extractB cs) = none ↔ ∃ c ∈ cs, c ≠ '0' ∧ c ≠ '1') ∧
  (∀ (cs : List Char) (bits : BitString), bitsOfChars cs = some bits →
    expand (.extractB cs) = some [.extract cs.length (parseU bits)]) ∧
  (∀ (s : State) (cs : List Char) (is : List Instr), s.live = true → s.state = .idle →
    expand (.frame cs) = some is →
    ∃ bits, bitsOfChars cs = some bits ∧ emitted is s = [{ bitCount := cs.length, value := parseU bits }])

/-- R210, R32: whatever construction answers has the configuration it was given, which was well-formed, and no run of any
length over any inputs changes the configuration. Its place in State is the model's choice (log entry 2). -/
def Obligations.ConfigurationIsFixedForTheLifetime : Prop :=
  (∀ (c : Configuration) (t : State), construct c = .next t → configurationWf c = true ∧ t.cfg = c) ∧
  (∀ (k : Nat) (s t : State), Sys2Proof.core.run k s = .next t → t.cfg = s.cfg)

/-- R159: what FX answers is a claim about a stated `FMT`. EXTRACT reads the table of the instance and no other; the
descriptor that table gives the length settles the result, so a property of it is premise enough; and the default table
is not forced, since a well-formed v7 table gives other fields and another `encoded` for some codeword. -/
def Obligations.FieldClaimsNeedAStatedTable : Prop :=
  (∀ (s t : State) (n v : Nat), exec (.extract n v) s = .next t → t.out.fx = some (extractFields s.cfg.fmt n v)) ∧
  (∀ (fmt fmt' : FormatTable) (n v : Nat), fmtLookup fmt n = fmtLookup fmt' n →
    extractFields fmt n v = extractFields fmt' n v) ∧
  (∀ n ∈ [26, 35, 37], ∃ (fmt : FormatTable) (v : Nat), fmtWf fmt = true ∧ fmtIsV7 fmt = true ∧ v < 2 ^ n ∧
    (extractFields fmt n v).facilityCode ≠ (extractFields defaultFmt n v).facilityCode ∧
    (extractFields fmt n v).cardNumber ≠ (extractFields defaultFmt n v).cardNumber ∧
    (extractFields fmt n v).cardNumberNoFacility ≠ (extractFields defaultFmt n v).cardNumberNoFacility ∧
    (extractFields fmt n v).encoded ≠ (extractFields defaultFmt n v).encoded)

/-- R83: `emit_valid` is 1 in exactly the steps that complete a frame; then `emit_n`, in `COUNT_W` bits, and `emit_v`, in
`VALUE_W` bits, carry the completed codeword, with `emit_n > 0` and `emit_v < 2^emit_n`; otherwise they have no value.
The instance is a finite one within R7's bounds with no overflow recorded (R107); past that the buses carry the codeword
or no value and never a truncation (R8, log entry 18). -/
def Obligations.EmitPortCarriesTheCodewordInItsWidths : Prop :=
  (∀ (i : Instr) (s t : State) (w : Widths), exec i s = .next t →
    ((emitPort w t.out).valid = true ↔ s.live = true ∧ s.state = .accumulating ∧
      ∃ l, i = timeoutOp l ∧ setLine s.timeoutFlags l true = bothLines)) ∧
  (∀ (i : Instr) (s t : State) (w : Widths), s.Inv → s.WidthKeptOrRecorded → s.cfg.widths = some w →
    widthsWf w = true → s.faults.any isOverflow = false → exec i s = .next t → (emitPort w t.out).valid = true →
    ∃ n v, (emitPort w t.out).n = some n ∧ (emitPort w t.out).v = some v ∧ n.toNat = s.bitCount ∧
      v.toNat = s.value ∧ 0 < n.toNat ∧ v.toNat < 2 ^ n.toNat) ∧
  (∀ (o : Outputs) (w : Widths), (emitPort w o).valid = false → (emitPort w o).n = none ∧ (emitPort w o).v = none) ∧
  (∀ (o : Outputs) (w : Widths) (c : Codeword), o.emit = some c →
    (∀ n ∈ (emitPort w o).n, n.toNat = c.bitCount) ∧ (∀ v ∈ (emitPort w o).v, v.toNat = c.value))

/-- R8, R107, R183: in a finite realisation no step exceeds `VALUE_W` silently. Every step keeps "the frame is within
the width or its overflow is recorded", and every constructed state has it. -/
def Obligations.WidthIsNeverExceededSilently : Prop :=
  (∀ s t : State, s.WidthKeptOrRecorded → step s = .next t → t.WidthKeptOrRecorded) ∧
  (∀ (c : Configuration) (t : State), construct c = .next t → t.WidthKeptOrRecorded) ∧
  (∀ (s : State) (w : Widths), s.Inv → s.WidthKeptOrRecorded → s.cfg.widths = some w → widthsWf w = true →
    s.faults.any isOverflow = false →
    (∃ n, countRegister w s = some n ∧ n.toNat = s.bitCount) ∧ ∃ v, valueRegister w s = some v ∧ v.toNat = s.value)
end

