-- ==== Sys2Proof/Laws/BitString.lean ====
section
/-! SUPPORT. The basic facts of the bit-string primitives. -/

namespace Sys2Proof.Machine

@[simp] theorem length_bin (n v : Nat) : (bin n v).length = n := by
  induction n with
  | zero => rfl
  | succ n ih => simp [bin, ih]

@[simp] theorem length_hex (d x : Nat) : (hex d x).length = d := by
  induction d with
  | zero => rfl
  | succ d ih => simp [hex, ih]

@[simp] theorem parseU_nil : parseU [] = 0 := rfl

@[simp] theorem parseU_cons (b : Bool) (s : BitString) : parseU (b :: s) = b.toNat * 2 ^ s.length + parseU s := rfl

theorem parseU_append (s t : BitString) : parseU (s ++ t) = parseU s * 2 ^ t.length + parseU t := by
  induction s with
  | nil => simp
  | cons b s ih => simp [ih, pow_add]; ring

theorem parseU_lt (s : BitString) : parseU s < 2 ^ s.length := by
  induction s with
  | nil => simp
  | cons b s ih => cases b <;> simp [pow_succ] <;> omega

/-- `bin_n(v)` keeps the low `n` bits of `v`. -/
theorem parseU_bin_mod (n v : Nat) : parseU (bin n v) = v % 2 ^ n := by
  induction n with
  | zero => simp [bin, Nat.mod_one]
  | succ n ih =>
    have hb : (v.testBit n).toNat = v / 2 ^ n % 2 := by
      rw [Nat.testBit_eq_decide_div_mod_eq]
      rcases Nat.mod_two_eq_zero_or_one (v / 2 ^ n) with h | h <;> simp [h]
    rw [bin, parseU_cons, length_bin, ih, hb, pow_succ, Nat.mod_mul, Nat.mul_comm, Nat.add_comm]

/-- R11: within the contract, the string of `v` has the value `v`. -/
theorem parseU_bin {n v : Nat} (h : v < 2 ^ n) : parseU (bin n v) = v := by
  rw [parseU_bin_mod, Nat.mod_eq_of_lt h]

/-- `(value << 1) | b(l)` doubles the value and adds the data bit. -/
theorem appendBit_eq (v : Nat) (l : Line) : appendBit v l = 2 * v + dataBit l := by
  cases l
  · simp [appendBit, dataBit, Nat.shiftLeft_eq, Nat.mul_comm]
  · have h : (v <<< 1) + 1 = v <<< 1 ||| 1 := Nat.shiftLeft_add_eq_or_of_lt (i := 1) (by decide) v
    rw [appendBit, dataBit, ← h, Nat.shiftLeft_eq, pow_one, Nat.mul_comm]

/-- An append keeps `value < 2^bitCount` (R22). -/
theorem appendBit_lt {v n : Nat} (l : Line) (h : v < 2 ^ n) : appendBit v l < 2 ^ (n + 1) := by
  have hb : dataBit l ≤ 1 := by cases l <;> decide
  rw [appendBit_eq, pow_succ]
  omega

end Sys2Proof.Machine
end

