-- ==== Sys2Proof/Laws/Flags.lean ====
section
/-! SUPPORT. What reading and writing one line of a two-bit register does. -/

namespace Sys2Proof.Machine

@[simp] theorem getLine_setLine_same (x : LineBits) (l : Line) (b : Bool) : getLine (setLine x l b) l = b := by
  cases l <;> rfl

@[simp] theorem getLine_setLine_other (x : LineBits) (l : Line) (b : Bool) :
    getLine (setLine x l b) (otherLine l) = getLine x (otherLine l) := by
  cases l <;> rfl

@[simp] theorem getLine_noLine (l : Line) : getLine noLine l = false := by cases l <;> rfl

@[simp] theorem getLine_bothLines (l : Line) : getLine bothLines l = true := by cases l <;> rfl

@[simp] theorem otherLine_otherLine (l : Line) : otherLine (otherLine l) = l := by cases l <;> rfl

theorem noLine_ne_bothLines : noLine ≠ bothLines := by decide

/-- Two registers that agree on a line and on the other one are equal. -/
theorem lineBits_ext {x y : LineBits} (l : Line) (h : getLine x l = getLine y l)
    (ho : getLine x (otherLine l) = getLine y (otherLine l)) : x = y := by
  cases x; cases y; cases l <;> simp_all [getLine, otherLine]

/-- R115: a timeout on `l` completes the frame exactly when the other line's flag is set. -/
theorem completesFrame_eq_other (f : LineBits) (l : Line) : completesFrame f l = getLine f (otherLine l) := by
  obtain ⟨z, o⟩ := f
  cases l <;> cases z <;> cases o <;> rfl

end Sys2Proof.Machine
end

