-- ==== Sys2Proof/Laws/State.lean ====
section
/-! SUPPORT. The fields of every named update of State, one lemma per field per update. -/

namespace Sys2Proof.Machine

variable (s : State)

@[simp] theorem quiet_state : (quiet s).state = s.state := rfl

@[simp] theorem quiet_bitCount : (quiet s).bitCount = s.bitCount := rfl

@[simp] theorem quiet_value : (quiet s).value = s.value := rfl

@[simp] theorem quiet_timeoutFlags : (quiet s).timeoutFlags = s.timeoutFlags := rfl

@[simp] theorem quiet_armed : (quiet s).armed = s.armed := rfl

@[simp] theorem quiet_live : (quiet s).live = s.live := rfl

@[simp] theorem quiet_faults : (quiet s).faults = s.faults := rfl

@[simp] theorem quiet_out : (quiet s).out = Outputs.none := rfl

@[simp] theorem quiet_cfg : (quiet s).cfg = s.cfg := rfl

@[simp] theorem quiet_stream : (quiet s).stream = s.stream := rfl


@[simp] theorem raiseFault_state (r : FaultRecord) : (raiseFault r s).state = s.state := rfl

@[simp] theorem raiseFault_bitCount (r : FaultRecord) : (raiseFault r s).bitCount = s.bitCount := rfl

@[simp] theorem raiseFault_value (r : FaultRecord) : (raiseFault r s).value = s.value := rfl

@[simp] theorem raiseFault_timeoutFlags (r : FaultRecord) : (raiseFault r s).timeoutFlags = s.timeoutFlags := rfl

@[simp] theorem raiseFault_armed (r : FaultRecord) : (raiseFault r s).armed = s.armed := rfl

@[simp] theorem raiseFault_live (r : FaultRecord) : (raiseFault r s).live = s.live := rfl

@[simp] theorem raiseFault_faults (r : FaultRecord) : (raiseFault r s).faults = insertFault r s.faults := rfl

@[simp] theorem raiseFault_out (r : FaultRecord) : (raiseFault r s).out = Outputs.none := rfl

@[simp] theorem raiseFault_cfg (r : FaultRecord) : (raiseFault r s).cfg = s.cfg := rfl

@[simp] theorem raiseFault_stream (r : FaultRecord) : (raiseFault r s).stream = s.stream := rfl


@[simp] theorem frameStart_state (l : Line) : (frameStart l s).state = .accumulating := rfl

@[simp] theorem frameStart_bitCount (l : Line) : (frameStart l s).bitCount = 1 := rfl

@[simp] theorem frameStart_value (l : Line) : (frameStart l s).value = dataBit l := rfl

@[simp] theorem frameStart_timeoutFlags (l : Line) : (frameStart l s).timeoutFlags = noLine := rfl

@[simp] theorem frameStart_armed (l : Line) : (frameStart l s).armed = bothLines := rfl

@[simp] theorem frameStart_live (l : Line) : (frameStart l s).live = s.live := rfl

@[simp] theorem frameStart_faults (l : Line) : (frameStart l s).faults = s.faults := rfl

@[simp] theorem frameStart_out (l : Line) : (frameStart l s).out = { Outputs.none with arm := bothLines } := rfl

@[simp] theorem frameStart_cfg (l : Line) : (frameStart l s).cfg = s.cfg := rfl

@[simp] theorem frameStart_stream (l : Line) : (frameStart l s).stream = s.stream := rfl


@[simp] theorem bitAppend_state (l : Line) : (bitAppend l s).state = s.state := rfl

@[simp] theorem bitAppend_bitCount (l : Line) : (bitAppend l s).bitCount = s.bitCount + 1 := rfl

@[simp] theorem bitAppend_value (l : Line) : (bitAppend l s).value = appendBit s.value l := rfl

@[simp] theorem bitAppend_timeoutFlags (l : Line) : (bitAppend l s).timeoutFlags = flagsAfterEdge s.timeoutFlags l := rfl

@[simp] theorem bitAppend_armed (l : Line) : (bitAppend l s).armed = s.armed := rfl

@[simp] theorem bitAppend_live (l : Line) : (bitAppend l s).live = s.live := rfl

@[simp] theorem bitAppend_faults (l : Line) : (bitAppend l s).faults = faultsAfterAppend s (s.bitCount + 1) := rfl

@[simp] theorem bitAppend_out (l : Line) : (bitAppend l s).out = Outputs.none := rfl

@[simp] theorem bitAppend_cfg (l : Line) : (bitAppend l s).cfg = s.cfg := rfl

@[simp] theorem bitAppend_stream (l : Line) : (bitAppend l s).stream = s.stream := rfl


@[simp] theorem timeoutSet_state (l : Line) : (timeoutSet l s).state = s.state := rfl

@[simp] theorem timeoutSet_bitCount (l : Line) : (timeoutSet l s).bitCount = s.bitCount := rfl

@[simp] theorem timeoutSet_value (l : Line) : (timeoutSet l s).value = s.value := rfl

@[simp] theorem timeoutSet_timeoutFlags (l : Line) : (timeoutSet l s).timeoutFlags = flagsAfterTimeout s.timeoutFlags l := rfl

@[simp] theorem timeoutSet_armed (l : Line) : (timeoutSet l s).armed = s.armed := rfl

@[simp] theorem timeoutSet_live (l : Line) : (timeoutSet l s).live = s.live := rfl

@[simp] theorem timeoutSet_faults (l : Line) : (timeoutSet l s).faults = s.faults := rfl

@[simp] theorem timeoutSet_out (l : Line) : (timeoutSet l s).out = Outputs.none := rfl

@[simp] theorem timeoutSet_cfg (l : Line) : (timeoutSet l s).cfg = s.cfg := rfl

@[simp] theorem timeoutSet_stream (l : Line) : (timeoutSet l s).stream = s.stream := rfl


@[simp] theorem frameComplete_state : (frameComplete s).state = .idle := rfl

@[simp] theorem frameComplete_bitCount : (frameComplete s).bitCount = 0 := rfl

@[simp] theorem frameComplete_value : (frameComplete s).value = 0 := rfl

@[simp] theorem frameComplete_timeoutFlags : (frameComplete s).timeoutFlags = noLine := rfl

@[simp] theorem frameComplete_armed : (frameComplete s).armed = noLine := rfl

@[simp] theorem frameComplete_live : (frameComplete s).live = s.live := rfl

@[simp] theorem frameComplete_faults : (frameComplete s).faults = s.faults := rfl

@[simp] theorem frameComplete_out : (frameComplete s).out = { Outputs.none with emit := some { bitCount := s.bitCount, value := s.value }, disarm := bothLines } := rfl

@[simp] theorem frameComplete_cfg : (frameComplete s).cfg = s.cfg := rfl

@[simp] theorem frameComplete_stream : (frameComplete s).stream = s.stream := rfl


@[simp] theorem teardown_state : (teardown s).state = .idle := rfl

@[simp] theorem teardown_bitCount : (teardown s).bitCount = 0 := rfl

@[simp] theorem teardown_value : (teardown s).value = 0 := rfl

@[simp] theorem teardown_timeoutFlags : (teardown s).timeoutFlags = noLine := rfl

@[simp] theorem teardown_armed : (teardown s).armed = noLine := rfl

@[simp] theorem teardown_live : (teardown s).live = false := rfl

@[simp] theorem teardown_faults : (teardown s).faults = s.faults := rfl

@[simp] theorem teardown_out : (teardown s).out = { Outputs.none with disarm := s.armed } := rfl

@[simp] theorem teardown_cfg : (teardown s).cfg = s.cfg := rfl

@[simp] theorem teardown_stream : (teardown s).stream = s.stream := rfl


@[simp] theorem deliverFx_state (r : FieldResult) : (deliverFx r s).state = s.state := rfl

@[simp] theorem deliverFx_bitCount (r : FieldResult) : (deliverFx r s).bitCount = s.bitCount := rfl

@[simp] theorem deliverFx_value (r : FieldResult) : (deliverFx r s).value = s.value := rfl

@[simp] theorem deliverFx_timeoutFlags (r : FieldResult) : (deliverFx r s).timeoutFlags = s.timeoutFlags := rfl

@[simp] theorem deliverFx_armed (r : FieldResult) : (deliverFx r s).armed = s.armed := rfl

@[simp] theorem deliverFx_live (r : FieldResult) : (deliverFx r s).live = s.live := rfl

@[simp] theorem deliverFx_faults (r : FieldResult) : (deliverFx r s).faults = s.faults := rfl

@[simp] theorem deliverFx_out (r : FieldResult) : (deliverFx r s).out = { Outputs.none with fx := some r } := rfl

@[simp] theorem deliverFx_cfg (r : FieldResult) : (deliverFx r s).cfg = s.cfg := rfl

@[simp] theorem deliverFx_stream (r : FieldResult) : (deliverFx r s).stream = s.stream := rfl


@[simp] theorem present_state (inp : Input) : (present inp s).state = s.state := rfl

@[simp] theorem present_bitCount (inp : Input) : (present inp s).bitCount = s.bitCount := rfl

@[simp] theorem present_value (inp : Input) : (present inp s).value = s.value := rfl

@[simp] theorem present_timeoutFlags (inp : Input) : (present inp s).timeoutFlags = s.timeoutFlags := rfl

@[simp] theorem present_armed (inp : Input) : (present inp s).armed = s.armed := rfl

@[simp] theorem present_live (inp : Input) : (present inp s).live = s.live := rfl

@[simp] theorem present_faults (inp : Input) : (present inp s).faults = s.faults := rfl

@[simp] theorem present_out (inp : Input) : (present inp s).out = s.out := rfl

@[simp] theorem present_cfg (inp : Input) : (present inp s).cfg = s.cfg := rfl

@[simp] theorem present_stream (inp : Input) : (present inp s).stream = inp :: s.stream := rfl


@[simp] theorem withStream_state (is : List Instr) : (withStream is s).state = s.state := rfl

@[simp] theorem withStream_bitCount (is : List Instr) : (withStream is s).bitCount = s.bitCount := rfl

@[simp] theorem withStream_value (is : List Instr) : (withStream is s).value = s.value := rfl

@[simp] theorem withStream_timeoutFlags (is : List Instr) : (withStream is s).timeoutFlags = s.timeoutFlags := rfl

@[simp] theorem withStream_armed (is : List Instr) : (withStream is s).armed = s.armed := rfl

@[simp] theorem withStream_live (is : List Instr) : (withStream is s).live = s.live := rfl

@[simp] theorem withStream_faults (is : List Instr) : (withStream is s).faults = s.faults := rfl

@[simp] theorem withStream_out (is : List Instr) : (withStream is s).out = s.out := rfl

@[simp] theorem withStream_cfg (is : List Instr) : (withStream is s).cfg = s.cfg := rfl

@[simp] theorem withStream_stream (is : List Instr) : (withStream is s).stream = is.map encode := rfl


@[simp] theorem outputs_none_emit : Outputs.none.emit = none := rfl

@[simp] theorem outputs_none_arm : Outputs.none.arm = noLine := rfl

@[simp] theorem outputs_none_disarm : Outputs.none.disarm = noLine := rfl

@[simp] theorem outputs_none_fx : Outputs.none.fx = none := rfl

end Sys2Proof.Machine
end

