-- ==== Sys2Proof/Laws/Ops.lean ====
section
/-! SUPPORT. One lemma per shared operation that says everything it can do, and the canonical form of the fault set. -/

namespace Sys2Proof.Machine

/-- What an edge can do (R101, R105, R106). -/
theorem edge_cases (l : Line) (s : State) :
    (s.live = false ∧ edge l s = quiet s) ∨
    (s.live = true ∧ s.state = .idle ∧ edge l s = frameStart l s) ∨
    (s.live = true ∧ s.state = .accumulating ∧ edge l s = bitAppend l s) := by
  cases hl : s.live <;> cases hs : s.state <;> simp [edge, hl, hs]

/-- What a timeout can do (R101, R115 to R117). -/
theorem timeout_cases (l : Line) (s : State) :
    (s.live = false ∧ timeout l s = quiet s) ∨
    (s.live = true ∧ s.state = .idle ∧ timeout l s = quiet s) ∨
    (s.live = true ∧ s.state = .accumulating ∧ getLine s.timeoutFlags (otherLine l) = true ∧
      timeout l s = frameComplete s) ∨
    (s.live = true ∧ s.state = .accumulating ∧ getLine s.timeoutFlags (otherLine l) = false ∧
      timeout l s = timeoutSet l s) := by
  cases hl : s.live <;> cases hs : s.state <;> cases ho : getLine s.timeoutFlags (otherLine l) <;>
    simp [timeout, hl, hs, ho, completesFrame_eq_other]

/-- What a cancellation can do (R130). -/
theorem cancel_cases (s : State) :
    (s.live = false ∧ cancel s = quiet s) ∨ (s.live = true ∧ cancel s = teardown s) := by
  cases hl : s.live <;> simp [cancel, hl]

/-- What EXTRACT can do (R150, R184, R213). -/
theorem execExtract_cases (n v : Nat) (s : State) :
    (2 ^ n ≤ v ∧ execExtract n v s = .refused (.extractOutOfContract n v)) ∨
    (v < 2 ^ n ∧ fmtWf s.cfg.fmt = false ∧ execExtract n v s = .refused .illFormedConfiguration) ∨
    (v < 2 ^ n ∧ fmtWf s.cfg.fmt = true ∧
      execExtract n v s = .next (deliverFx (extractFields s.cfg.fmt n v) s)) := by
  by_cases h : v < 2 ^ n <;> cases hf : fmtWf s.cfg.fmt <;> simp [execExtract, meetsContract, h, hf]
  all_goals omega

/-- Adding a record adds that record to the set and nothing else (R182). -/
theorem mem_insertFault (r x : FaultRecord) (xs : List FaultRecord) :
    r ∈ insertFault x xs ↔ r = x ∨ r ∈ xs := by
  induction xs with
  | nil => simp [insertFault]
  | cons y ys ih =>
    simp only [insertFault]
    split
    · rename_i h; subst h; simp
    · split
      · simp
      · simp only [List.mem_cons, ih]; tauto

/-- Two different records are ordered one way or the other. -/
theorem faultBefore_total {a b : FaultRecord} (h : a ≠ b) : faultBefore a b = true ∨ faultBefore b a = true := by
  cases a with
  | reservedEvent v =>
    cases b with
    | reservedEvent w =>
      have hne : v.toNat ≠ w.toNat := fun e => h (congrArg _ (BitVec.eq_of_toNat_eq e))
      exact (Nat.lt_or_gt_of_ne hne).imp (fun hlt => by simp [faultBefore, causeCode, faultInfo, hlt])
        fun hgt => by simp [faultBefore, causeCode, faultInfo, hgt]
    | valueOverflow n => exact .inl rfl
  | valueOverflow m =>
    cases b with
    | reservedEvent w => exact .inr rfl
    | valueOverflow n =>
      have hne : m ≠ n := fun e => h (congrArg _ e)
      exact (Nat.lt_or_gt_of_ne hne).imp (fun hlt => by simp [faultBefore, causeCode, faultInfo, hlt])
        fun hgt => by simp [faultBefore, causeCode, faultInfo, hgt]

/-- Adding a record to a list headed by an earlier one leaves the head in place. -/
theorem faultsWf_cons {x : FaultRecord} {ys : List FaultRecord} :
    faultsWf (x :: ys) = true ↔ (∀ y ∈ ys.head?, faultBefore x y = true) ∧ faultsWf ys = true := by
  cases ys <;> simp [faultsWf]

/-- The canonical form of the set is kept by the one operation that changes it. -/
theorem insertFault_wf (r : FaultRecord) (xs : List FaultRecord) (h : faultsWf xs = true) :
    faultsWf (insertFault r xs) = true := by
  induction xs with
  | nil => rfl
  | cons x xs ih =>
    obtain ⟨hx, hw⟩ := faultsWf_cons.mp h
    simp only [insertFault]
    split
    · exact h
    · rename_i hne
      split
      · rename_i hb; exact faultsWf_cons.mpr ⟨by simpa using hb, h⟩
      · rename_i hb
        have hxr : faultBefore x r = true := (faultBefore_total hne).resolve_left hb
        refine faultsWf_cons.mpr ⟨?_, ih hw⟩
        cases xs with
        | nil => simpa [insertFault] using hxr
        | cons y ys =>
          have hxy : faultBefore x y = true := hx y rfl
          simp only [insertFault]
          split
          · rename_i he; subst he; simpa using hxr
          · split <;> simp [hxr, hxy]

/-- What an append adds to the record (R107, R183). -/
theorem mem_faultsAfterAppend (r : FaultRecord) (s : State) (n : Nat) :
    r ∈ faultsAfterAppend s n ↔ r ∈ s.faults ∨ (exceedsValueW s.cfg n = true ∧ r = .valueOverflow n) := by
  unfold faultsAfterAppend
  split
  · rename_i h; simp [mem_insertFault, h, or_comm]
  · rename_i h; simp [h]

theorem faultsAfterAppend_wf (s : State) (n : Nat) (h : faultsWf s.faults = true) :
    faultsWf (faultsAfterAppend s n) = true := by
  unfold faultsAfterAppend
  split
  · exact insertFault_wf _ _ h
  · exact h

end Sys2Proof.Machine
end

