-- ==== Sys2Proof/Laws/Exec.lean ====
section
/-! SUPPORT. What an instruction can do, said once, and how runs and emissions unfold. -/

namespace Sys2Proof.Machine

/-- Every way in which an instruction gives a next state. -/
theorem exec_next_cases {i : Instr} {s t : State} (h : exec i s = .next t) :
    (t = quiet s ∧ s.live = false ∧ ((∃ l, i = edgeOp l) ∨ (∃ l, i = timeoutOp l) ∨ i = .cancel)) ∨
    (t = quiet s ∧ s.live = true ∧ s.state = .idle ∧ ∃ l, i = timeoutOp l) ∨
    (∃ l, i = edgeOp l ∧ s.live = true ∧ s.state = .idle ∧ t = frameStart l s) ∨
    (∃ l, i = edgeOp l ∧ s.live = true ∧ s.state = .accumulating ∧ t = bitAppend l s) ∨
    (∃ l, i = timeoutOp l ∧ s.live = true ∧ s.state = .accumulating ∧
      getLine s.timeoutFlags (otherLine l) = true ∧ t = frameComplete s) ∨
    (∃ l, i = timeoutOp l ∧ s.live = true ∧ s.state = .accumulating ∧
      getLine s.timeoutFlags (otherLine l) = false ∧ t = timeoutSet l s) ∨
    (i = .cancel ∧ s.live = true ∧ t = teardown s) ∨
    (∃ w, ((i = .reserved101 ∧ w = 0b101) ∨ ∃ l, i = .reserved11x l ∧ w = eventWord 0b11 (lineBit l)) ∧
      t = raiseFault (.reservedEvent w) s) ∨
    (∃ n v, i = .extract n v ∧ v < 2 ^ n ∧ fmtWf s.cfg.fmt = true ∧
      t = deliverFx (extractFields s.cfg.fmt n v) s) := by
  cases i with
  | edge0 =>
    cases h
    rcases edge_cases .zeroLine s with ⟨hl, e⟩ | ⟨hl, hs, e⟩ | ⟨hl, hs, e⟩
    · exact .inl ⟨e, hl, .inl ⟨.zeroLine, rfl⟩⟩
    · exact .inr (.inr (.inl ⟨.zeroLine, rfl, hl, hs, e⟩))
    · exact .inr (.inr (.inr (.inl ⟨.zeroLine, rfl, hl, hs, e⟩)))
  | edge1 =>
    cases h
    rcases edge_cases .oneLine s with ⟨hl, e⟩ | ⟨hl, hs, e⟩ | ⟨hl, hs, e⟩
    · exact .inl ⟨e, hl, .inl ⟨.oneLine, rfl⟩⟩
    · exact .inr (.inr (.inl ⟨.oneLine, rfl, hl, hs, e⟩))
    · exact .inr (.inr (.inr (.inl ⟨.oneLine, rfl, hl, hs, e⟩)))
  | tmo0 =>
    cases h
    rcases timeout_cases .zeroLine s with ⟨hl, e⟩ | ⟨hl, hs, e⟩ | ⟨hl, hs, ho, e⟩ | ⟨hl, hs, ho, e⟩
    · exact .inl ⟨e, hl, .inr (.inl ⟨.zeroLine, rfl⟩)⟩
    · exact .inr (.inl ⟨e, hl, hs, .zeroLine, rfl⟩)
    · exact .inr (.inr (.inr (.inr (.inl ⟨.zeroLine, rfl, hl, hs, ho, e⟩))))
    · exact .inr (.inr (.inr (.inr (.inr (.inl ⟨.zeroLine, rfl, hl, hs, ho, e⟩)))))
  | tmo1 =>
    cases h
    rcases timeout_cases .oneLine s with ⟨hl, e⟩ | ⟨hl, hs, e⟩ | ⟨hl, hs, ho, e⟩ | ⟨hl, hs, ho, e⟩
    · exact .inl ⟨e, hl, .inr (.inl ⟨.oneLine, rfl⟩)⟩
    · exact .inr (.inl ⟨e, hl, hs, .oneLine, rfl⟩)
    · exact .inr (.inr (.inr (.inr (.inl ⟨.oneLine, rfl, hl, hs, ho, e⟩))))
    · exact .inr (.inr (.inr (.inr (.inr (.inl ⟨.oneLine, rfl, hl, hs, ho, e⟩)))))
  | cancel =>
    cases h
    rcases cancel_cases s with ⟨hl, e⟩ | ⟨hl, e⟩
    · exact .inl ⟨e, hl, .inr (.inr rfl)⟩
    · exact .inr (.inr (.inr (.inr (.inr (.inr (.inl ⟨rfl, hl, e⟩))))))
  | reserved101 =>
    cases h
    exact .inr (.inr (.inr (.inr (.inr (.inr (.inr (.inl ⟨_, .inl ⟨rfl, rfl⟩, rfl⟩)))))))
  | reserved11x l =>
    cases h
    exact .inr (.inr (.inr (.inr (.inr (.inr (.inr (.inl ⟨_, .inr ⟨l, rfl, rfl⟩, rfl⟩)))))))
  | extract n v =>
    rcases execExtract_cases n v s with ⟨_, e⟩ | ⟨_, _, e⟩ | ⟨hv, hf, e⟩
    · cases e.symm.trans h
    · cases e.symm.trans h
    · cases e.symm.trans h
      exact .inr (.inr (.inr (.inr (.inr (.inr (.inr (.inr ⟨n, v, rfl, hv, hf, rfl⟩)))))))

/-- A step that gives a next state waited, or ran the instruction its input decoded to. -/
theorem step_next_cases {s t : State} (h : step s = .next t) :
    (s.stream = [] ∧ t = quiet s) ∨
    ∃ inp rest i, s.stream = inp :: rest ∧ decode inp = .ok i ∧ exec i { s with stream := rest } = .next t := by
  unfold step fetch at h
  cases hs : s.stream with
  | nil => rw [hs] at h; cases h; exact .inl ⟨rfl, rfl⟩
  | cons inp rest =>
    rw [hs] at h
    cases hd : decode inp with
    | ok i => simp only [hd] at h; exact .inr ⟨inp, rest, i, rfl, hd, h⟩
    | error why => simp [hd] at h

@[simp] theorem emissions_zero (s : State) : emissions 0 s = [] := rfl

theorem emissions_succ {k : Nat} {s t : State} (h : step s = .next t) :
    emissions (k + 1) s = t.out.emit.toList ++ emissions k t := by
  simp only [emissions, h]

theorem core_run_succ {k : Nat} {s t : State} (h : step s = .next t) :
    Sys2Proof.core.run (k + 1) s = Sys2Proof.core.run k t := by
  have hc : Sys2Proof.core.step s = .next t := h
  simp only [Host.Core.run, hc]

end Sys2Proof.Machine
end

