-- ==== Sys2Proof/Laws/FieldExtractor.lean ====
section
/-! SUPPORT. The fields of FX's result, one lemma each, and the lookup in a well-formed table. -/

namespace Sys2Proof.Machine

variable (fmt : FormatTable) (n v : Nat)

@[simp] theorem extractFields_known : (extractFields fmt n v).known = (fmtLookup fmt n).isSome := rfl

@[simp] theorem extractFields_facilityCode :
    (extractFields fmt n v).facilityCode = (fmtLookup fmt n).map fun d => fieldOf (bin n v) d.fc := rfl

@[simp] theorem extractFields_cardNumber :
    (extractFields fmt n v).cardNumber = (fmtLookup fmt n).map fun d => fieldOf (bin n v) d.cn := rfl

@[simp] theorem extractFields_cardNumberNoFacility :
    (extractFields fmt n v).cardNumberNoFacility = (fmtLookup fmt n).map fun d => fieldOf (bin n v) d.cnnf := rfl

@[simp] theorem extractFields_raw : (extractFields fmt n v).raw = bin n v := rfl

@[simp] theorem extractFields_full : (extractFields fmt n v).full = headerOf (fmtLookup fmt n) ++ bin n v := rfl

@[simp] theorem extractFields_encoded :
    (extractFields fmt n v).encoded = parseU (headerOf (fmtLookup fmt n) ++ bin n v) := rfl

@[simp] theorem extractFields_encodedLen :
    (extractFields fmt n v).encodedLen = (headerOf (fmtLookup fmt n) ++ bin n v).length := rfl

@[simp] theorem extractFields_hex :
    (extractFields fmt n v).hex = hex (hexDigits (extractFields fmt n v).encodedLen) (extractFields fmt n v).encoded :=
  rfl

variable {fmt n}

/-- A descriptor found in a well-formed table is well-formed (R158, R213). -/
theorem descriptorWf_of_lookup {d : Descriptor} (hw : fmtWf fmt = true) (h : fmtLookup fmt n = some d) :
    descriptorWf n d = true := by
  induction fmt with
  | nil => simp [fmtLookup] at h
  | cons e t ih =>
    obtain ⟨k, d'⟩ := e
    simp only [fmtWf, Bool.and_eq_true] at hw
    simp only [fmtLookup] at h
    split at h
    · rename_i hk; subst hk; cases h; exact hw.1.1
    · exact ih hw.2 h

end Sys2Proof.Machine
end

