-- ==== Sys2Proof/Laws/PerInstr.lean ====
section
/-! SUPPORT. Per instruction: the input that presents it is its row of spec/opcode_table.json, the word written out bit
by bit (R73), or the FX request (R77). -/

namespace Sys2Proof.Laws.EncodesTableRow

/-- The row's word or request, written out. -/
def Statement : Instr → Prop
  | .edge0 => encode .edge0 = .ev 0b000 []
  | .edge1 => encode .edge1 = .ev 0b001 []
  | .tmo0 => encode .tmo0 = .ev 0b010 []
  | .tmo1 => encode .tmo1 = .ev 0b011 []
  | .cancel => encode .cancel = .ev 0b100 []
  | .reserved101 => encode .reserved101 = .ev 0b101 []
  | .reserved11x .zeroLine => encode (.reserved11x .zeroLine) = .ev 0b110 []
  | .reserved11x .oneLine => encode (.reserved11x .oneLine) = .ev 0b111 []
  | .extract n v => encode (.extract n v) = .fx n v

theorem edge0 : Statement .edge0 := rfl

theorem edge1 : Statement .edge1 := rfl

theorem tmo0 : Statement .tmo0 := rfl

theorem tmo1 : Statement .tmo1 := rfl

theorem cancel : Statement .cancel := rfl

theorem reserved101 : Statement .reserved101 := rfl

theorem reserved11x (line : Line) : Statement (.reserved11x line) := by cases line <;> rfl

theorem extract (n v : Nat) : Statement (.extract n v) := rfl

end Sys2Proof.Laws.EncodesTableRow
end

