-- ==== Sys2Proof/Laws/Ports.lean ====
section
/-! SUPPORT. What a bus carries, and the fields of the `emit` port. -/

namespace Sys2Proof.Machine

/-- A number that fits stands on the bus. -/
theorem onBus_of_lt {width x : Nat} (h : x < 2 ^ width) : onBus width x = some (BitVec.ofNat width x) := by
  simp [onBus, h]

/-- What stands on the bus is the number, never a truncation of it. -/
theorem onBus_toNat {width x : Nat} {b : BitVec width} (h : onBus width x = some b) : b.toNat = x := by
  unfold onBus at h
  split at h
  · rename_i hlt; cases h; exact BitVec.toNat_ofNat .. |>.trans (Nat.mod_eq_of_lt hlt)
  · cases h

variable (w : Widths) (o : Outputs)

@[simp] theorem emitPort_valid : (emitPort w o).valid = o.emit.isSome := rfl

@[simp] theorem emitPort_n : (emitPort w o).n = o.emit.bind fun c => onBus w.countW c.bitCount := rfl

@[simp] theorem emitPort_v : (emitPort w o).v = o.emit.bind fun c => onBus w.valueW c.value := rfl

end Sys2Proof.Machine
end

