-- ==== Sys2Proof/Tests/Slice0.lean ====
section
/-! SUPPORT. Tests whose expected results come from the spec (opcode map R73, vectors of 95_test_vectors.md), the
ill-formed terms each check refuses, and for every statement with hypotheses a state and operands that meet them. -/

namespace Sys2Proof.Tests

open Sys2Proof.Machine

/-- The next state, where there is one. -/
def nextOf : Host.Outcome State Fault Refusal → Option State
  | .next t => some t
  | .fault _ => none
  | .refused _ => none

/-- `(A, n, v, f, 11, 1)` of 95_test_vectors.md, in the reference model. -/
def acc (n v : Nat) (f : LineBits) : State :=
  { State.reset with state := .accumulating, bitCount := n, value := v, timeoutFlags := f, armed := bothLines }

/-- The flags `01` and `10`, OneLine's bit first as in 95_test_vectors.md. -/
def zt : LineBits := { zero := true, one := false }
def ot : LineBits := { zero := false, one := true }

/-- `(I, 0, 0, 00, 00, 0)`: cancelled. -/
def dead : State := { State.reset with live := false }

/-- A state in the default finite realisation (`VALUE_W = 64`). -/
def finite (s : State) : State := { s with cfg := defaultConfiguration }

/-- A table whose one descriptor is ill-formed (a slice past the codeword). -/
def badFmt : FormatTable := [(26, { descriptor26 with cn := ⟨9, 26⟩ })]

def badTable : State := { State.reset with cfg := { referenceConfiguration with fmt := badFmt } }

-- Well-formedness: an ill-formed term for each check.

theorem test_wf_extract_contract : (Instr.extract 3 7).wf = true ∧ (Instr.extract 3 8).wf = false := by decide

theorem test_wf_slice : sliceWf 26 ⟨1, 25⟩ = true ∧ sliceWf 26 ⟨2, 1⟩ = false ∧ sliceWf 26 ⟨1, 26⟩ = false := by decide

theorem test_wf_descriptor_slices :
    descriptorWf 26 { descriptor26 with fc := ⟨8, 1⟩ } = false ∧
    descriptorWf 26 { descriptor26 with cn := ⟨9, 26⟩ } = false ∧
    descriptorWf 26 { descriptor26 with cnnf := ⟨1, 26⟩ } = false := by decide

theorem test_wf_descriptor_header :
    descriptorWf 26 descriptor26 = true ∧ descriptorWf 26 { descriptor26 with header := [true] } = false := by decide

theorem test_wf_table_key_twice : fmtWf defaultFmt = true ∧ fmtWf ((26, descriptor26) :: defaultFmt) = false := by decide

theorem test_wf_line_identifiers : configurationWf { referenceConfiguration with lineIdOne := 0 } = false := by decide

theorem test_wf_window : configurationWf { referenceConfiguration with tMs := 0 } = false := by decide

theorem test_wf_widths :
    widthsWf defaultWidths = true ∧ widthsWf { defaultWidths with valueW := 63 } = false ∧
    widthsWf { defaultWidths with countW := 6 } = false ∧ widthsWf { defaultWidths with fxNW := 6 } = false := by decide

theorem test_wf_configurations :
    configurationWf referenceConfiguration = true ∧ configurationWf defaultConfiguration = true := by decide

-- Decoding: words written out from R73; a fourth bit is no event word (R70).

theorem test_decode_edges :
    decodeTableWord 8 0b000 = some .edge0 ∧ decodeTableWord 8 0b001 = some .edge1 := by decide

theorem test_decode_timeouts :
    decodeTableWord 8 0b010 = some .tmo0 ∧ decodeTableWord 8 0b011 = some .tmo1 := by decide

theorem test_decode_cancel : decodeTableWord 8 0b100 = some .cancel := by decide

theorem test_decode_reserved :
    decodeTableWord 8 0b101 = some .reserved101 ∧ decodeTableWord 8 0b110 = some (.reserved11x .zeroLine) ∧
    decodeTableWord 8 0b111 = some (.reserved11x .oneLine) := by decide

theorem test_decode_wider_word : decodeTableWord 8 0b1000 = none := by decide

theorem test_decode_extract : decodeTableWord 0 0 = some (.extract 0 0) := by decide

-- One step per test, from the vectors of 95_test_vectors.md section 2.

/-- V-FA-1. -/
theorem test_edge0_starts_a_frame : (nextOf (exec .edge0 State.reset)).map State.regs = some (acc 1 0 noLine).regs := by
  decide

/-- V-FA-5: the edge clears its own flag. -/
theorem test_edge0_clears_own_flag : (nextOf (exec .edge0 (acc 3 5 zt))).map State.regs = some (acc 4 10 noLine).regs := by
  decide

/-- V-FA-6: the edge keeps the other flag. -/
theorem test_edge1_keeps_other_flag : (nextOf (exec .edge1 (acc 3 5 zt))).map State.regs = some (acc 4 11 zt).regs := by
  decide

/-- V-FA-22: the 65th bit in an instance of 64 bits. -/
theorem test_edge1_overflow :
    (nextOf (exec .edge1 (finite (acc 64 (2 ^ 64 - 1) noLine)))).map (fun t => (t.bitCount, t.value, t.faults)) =
      some (65, 2 ^ 65 - 1, [.valueOverflow 65]) := by decide

/-- V-FA-13. -/
theorem test_tmo0_completes :
    (nextOf (exec .tmo0 (acc 4 10 ot))).map (fun t => (t.regs, t.out)) =
      some (State.reset.regs, { emit := some ⟨4, 10⟩, arm := noLine, disarm := bothLines, fx := none }) := by decide

/-- V-FA-11: a repeated timeout. -/
theorem test_tmo0_repeat : (nextOf (exec .tmo0 (acc 1 0 zt))).map State.regs = some (acc 1 0 zt).regs := by decide

/-- The example of R121. -/
theorem test_tmo1_sets_flag : (nextOf (exec .tmo1 (acc 1 0 noLine))).map State.regs = some (acc 1 0 ot).regs := by decide

/-- V-FA-12. -/
theorem test_tmo1_completes :
    (nextOf (exec .tmo1 (acc 1 0 zt))).map (fun t => (t.regs, t.out.emit)) = some (State.reset.regs, some ⟨1, 0⟩) := by
  decide

/-- V-FA-14. -/
theorem test_cancel_mid_frame :
    (nextOf (exec .cancel (acc 2 2 ot))).map (fun t => (t.regs, t.out)) =
      some (dead.regs, { emit := none, arm := noLine, disarm := bothLines, fx := none }) := by decide

/-- V-FA-15: no timer is armed, so none is disarmed. -/
theorem test_cancel_idle :
    (nextOf (exec .cancel State.reset)).map (fun t => (t.regs, t.out)) = some (dead.regs, Outputs.none) := by decide

/-- V-FA-19, and the record in ascending order beside an earlier `101`. -/
theorem test_reserved110 :
    (nextOf (exec (.reserved11x .zeroLine) { acc 1 0 noLine with faults := [.reservedEvent 0b101] })).map
      (fun t => (t.regs, t.faults)) =
      some ((acc 1 0 noLine).regs, [.reservedEvent 0b101, .reservedEvent 0b110]) := by decide

/-- V-FA-20. -/
theorem test_reserved101 :
    (nextOf (exec .reserved101 State.reset)).map (fun t => (t.regs, t.faults)) =
      some (State.reset.regs, [.reservedEvent 0b101]) := by decide

/-- The fields and the hexadecimal of a result, for comparison with section 2.3. -/
def fxSummary (o : Host.Outcome State Fault Refusal) : Option (Option Nat × Option Nat × Option Nat × List Char) :=
  (nextOf o).bind fun t => t.out.fx.map fun r => (r.facilityCode, r.cardNumber, r.cardNumberNoFacility, r.hex)

/-- V-FX-2. -/
theorem test_extract_37 :
    fxSummary (exec (.extract 37 0x29A0F4D2) State.reset) =
      some (some 666, some 31337, some 349207145,
        ['0', '0', '0', '0', '0', '0', '2', '0', '2', '9', 'A', '0', 'F', '4', 'D', '2']) := by decide

/-- V-FX-20: 17 digits for an unknown length of 64. -/
theorem test_extract_64 :
    fxSummary (exec (.extract 64 0x0123456789ABCDEF) State.reset) =
      some (none, none, none,
        ['0', '0', '1', '2', '3', '4', '5', '6', '7', '8', '9', 'A', 'B', 'C', 'D', 'E', 'F']) := by decide

-- The assembler (R85 to R88).

theorem test_assemble_line :
    assembleLine ['e', 'x', 't', 'r', 'a', 'c', 't', ' ', '2', '6', ',', ' ', '0', 'x', '5', 'A', ' ', ';', 'x'] =
      some [.extract 26 0x5A] := by decide

theorem test_listing_edge1 : listedEncoding (encode .edge1) = ['0', '0', '1'] := by decide

-- The bus widths and fields of R81 and R38.

theorem test_bus_widths :
    widestSlice Descriptor.fc defaultFmt = 16 ∧ widestSlice Descriptor.cn defaultFmt = 20 ∧
    widestSlice Descriptor.cnnf defaultFmt = 35 ∧ encodedBusWidth defaultWidths = 256 := by decide

/-- V-FA-13 on the port of the default realisation: 8 bits of `emit_n` and 64 of `emit_v` (R7, R83). -/
theorem test_emit_port :
    (nextOf (exec .tmo0 (finite (acc 4 10 ot)))).map (fun t => emitPort defaultWidths t.out) =
      some { valid := true, n := some (4 : BitVec 8), v := some (10 : BitVec 64) } := by decide

/-- The codeword of V-FA-22's frame does not fit 64 bits: no value stands on `emit_v`, least of all a truncated one. -/
theorem test_emit_port_overflow :
    (nextOf (exec .tmo0 (finite (acc 65 (2 ^ 65 - 1) ot)))).map (fun t => emitPort defaultWidths t.out) =
      some { valid := true, n := some (65 : BitVec 8), v := none } := by decide

theorem test_status_flags : (statusOf (acc 1 0 zt)).timeoutFlags = 0b01 ∧ (statusOf (acc 1 0 ot)).timeoutFlags = 0b10 := by
  decide

-- Witnesses: for each statement with hypotheses, a state and operands that meet them all.

theorem witness_stepRunsTheDecodedInstruction :
    (State.reset.withFetchWord 8 0b001).stream = [.ev 0b001 []] ∧ decode (.ev 0b001 []) = .ok .edge1 := ⟨rfl, rfl⟩

theorem witness_decodeAndEncodeAgree : decode (.ev 0b111 []) = .ok (.reserved11x .oneLine) := rfl

theorem witness_simultaneousEventsAreRefused :
    ({ State.reset with stream := [.ev 0b000 [0b011]] } : State).stream = .ev 0b000 (0b011 :: []) :: [] := rfl

theorem witness_waitingHoldsTheState : State.reset.stream = [] := rfl

theorem witness_constructionSetsTheResetValues :
    configurationWf referenceConfiguration = true ∧ configurationWf defaultConfiguration = true := by decide

theorem witness_illFormed_lineIds :
    ({ referenceConfiguration with lineIdOne := 0 } : Configuration).lineIdZero =
      ({ referenceConfiguration with lineIdOne := 0 } : Configuration).lineIdOne := rfl

theorem witness_illFormed_window : ({ referenceConfiguration with tMs := 0 } : Configuration).tMs = 0 := rfl

theorem witness_illFormed_table : fmtWf badTable.cfg.fmt = false ∧ 3 < 2 ^ 2 := by decide

theorem witness_edgeWhileIdleStartsAFrame : State.reset.live = true ∧ State.reset.state = .idle := by decide

theorem witness_edgeWhileAccumulatingAppendsItsBit :
    (acc 3 5 zt).live = true ∧ (acc 3 5 zt).state = .accumulating := by decide

/-- The overflow clause: the 65th bit exceeds 64, the 64th does not (V-FA-22, V-FA-24). -/
theorem witness_edgeAppend_overflow :
    (finite (acc 64 0 noLine)).cfg.widths = some defaultWidths ∧ defaultWidths.valueW < 64 + 1 ∧
    ¬ defaultWidths.valueW < 63 + 1 := by decide

theorem witness_overflowIsRecordedExactlyBeyondTheWidth :
    ∃ t, exec .edge0 (finite (acc 64 0 noLine)) = .next t ∧ FaultRecord.valueOverflow 65 ∈ t.faults :=
  ⟨_, rfl, by decide⟩

theorem witness_overflow_notAt64 :
    ∃ t, exec .edge0 (finite (acc 63 0 noLine)) = .next t ∧ t.faults = [] := ⟨_, rfl, by decide⟩

theorem witness_detachedLineEventsChangeNothing : dead.live = false := rfl

theorem witness_timeoutWhileIdleChangesNothing : State.reset.live = true ∧ State.reset.state = .idle := by decide

theorem witness_timeout_sets :
    (acc 1 0 noLine).live = true ∧ (acc 1 0 noLine).state = .accumulating ∧
    setLine (acc 1 0 noLine).timeoutFlags .zeroLine true ≠ bothLines := by decide

theorem witness_timeout_completes :
    (acc 4 10 ot).live = true ∧ (acc 4 10 ot).state = .accumulating ∧
    setLine (acc 4 10 ot).timeoutFlags .zeroLine true = bothLines := by decide

theorem witness_repeatedTimeoutIsIdempotent :
    getLine (acc 1 0 noLine).timeoutFlags (otherLine .zeroLine) = false ∧
    ∃ t, exec (timeoutOp .zeroLine) (acc 1 0 noLine) = .next t := ⟨by decide, _, rfl⟩

theorem witness_cancelDetachesOnce :
    (acc 2 2 ot).live = true ∧ dead.live = false ∧ ∃ t, exec .edge1 dead = .next t := ⟨rfl, rfl, _, rfl⟩

theorem witness_reservedWordsOnlyRecordAFault :
    ((0b101 : EventWord), Instr.reserved101) ∈
      [((0b101 : EventWord), Instr.reserved101), (0b110, .reserved11x .zeroLine), (0b111, .reserved11x .oneLine)] ∧
    ((0b111 : EventWord), Instr.reserved11x .oneLine) ∈
      [((0b101 : EventWord), Instr.reserved101), (0b110, .reserved11x .zeroLine), (0b111, .reserved11x .oneLine)] := by
  decide

theorem witness_recordedFaultsGateNothing : ∃ t, exec .tmo1 (acc 1 0 zt) = .next t := ⟨_, rfl⟩

/-- The largest value in the contract, known and unknown. -/
theorem witness_extractReturnsTheFieldResult :
    2 ^ 26 - 1 < 2 ^ 26 ∧ fmtWf State.reset.cfg.fmt = true ∧ fmtLookup State.reset.cfg.fmt 26 = some descriptor26 ∧
    0 < 2 ^ 0 ∧ fmtLookup State.reset.cfg.fmt 0 = none := by decide

/-- V-FX-25: the smallest value out of the contract. -/
theorem witness_extractOutOfContractIsRefused : 2 ^ 0 ≤ 1 ∧ 2 ^ 3 ≤ 8 := by decide

theorem witness_extractDependsOnRequestAndTableOnly :
    State.reset.cfg.fmt = (acc 4 10 ot).cfg.fmt ∧ (∃ t, exec (.extract 26 5) State.reset = .next t) ∧
    ∃ t, exec (.extract 26 5) (acc 4 10 ot) = .next t := ⟨rfl, ⟨_, rfl⟩, _, rfl⟩

theorem witness_fieldsAreBitFieldsOfTheValue :
    fmtWf defaultFmt = true ∧ 2 ^ 35 - 1 < 2 ^ 35 ∧ fmtLookup defaultFmt 35 = some descriptor35 := by decide

theorem witness_unknownLengthsGiveNoFields :
    fmtWf defaultFmt = true ∧ fmtIsV7 defaultFmt = true ∧ (extractFields defaultFmt 25 0).known = false := by decide

theorem witness_encodedIsTheHeaderAboveTheValue :
    fmtWf defaultFmt = true ∧ 2 ^ 37 - 1 < 2 ^ 37 ∧ fmtLookup defaultFmt 37 = some descriptor37 ∧
    fmtLookup defaultFmt 38 = none ∧ 1 < 2 ^ 38 := by decide

theorem witness_fieldRangesFollowTheSlices :
    fmtWf defaultFmt = true ∧ 2 ^ 26 - 1 < 2 ^ 26 ∧ fmtLookup defaultFmt 26 = some descriptor26 ∧
    (26, 255, 65535, 16777215) ∈ [((26 : Nat), (255 : Nat), (65535 : Nat), (16777215 : Nat)),
      (35, 4095, 1048575, 4294967295), (37, 65535, 524287, 34359738367)] := by decide

/-- V-FX-1: facility 42, card 1337. -/
theorem witness_fieldRoundTrip :
    fmtWf defaultFmt = true ∧ fmtLookup defaultFmt 26 = some descriptor26 ∧
    slicesDisjoint descriptor26.fc descriptor26.cn ∧ (List.replicate 26 true).length = 26 ∧
    42 < 2 ^ sliceWidth descriptor26.fc ∧ 1337 < 2 ^ sliceWidth descriptor26.cn := by decide

/-- V-FX-4 and V-FX-5: 0 and the value with the two parity positions set. -/
theorem witness_bitsOutsideTheSlicesAreNotRead :
    fmtWf defaultFmt = true ∧ 0 < 2 ^ 26 ∧ 0x2000001 < 2 ^ 26 ∧ fmtLookup defaultFmt 26 = some descriptor26 ∧
    ∀ sl ∈ [descriptor26.fc, descriptor26.cn, descriptor26.cnnf], ∀ j, sl.a ≤ j → j ≤ sl.b →
      (bin 26 0)[j]? = (bin 26 0x2000001)[j]? := by
  refine ⟨by decide, by decide, by decide, by decide, fun sl hsl j ha hb => ?_⟩
  have hj : ∀ j, j < 26 → 1 ≤ j → j ≤ 24 → (bin 26 0)[j]? = (bin 26 0x2000001)[j]? := by decide
  have hall : ∀ sl ∈ [descriptor26.fc, descriptor26.cn, descriptor26.cnnf], 1 ≤ sl.a ∧ sl.b ≤ 24 := by decide
  have hsl' := hall sl hsl
  exact hj j (by omega) (by omega) (by omega)

theorem witness_noInstructionWritesConfigurationOrRevives : ∃ t, exec .edge1 (acc 1 0 zt) = .next t := ⟨_, rfl⟩

theorem witness_frame_edge :
    (acc 1 0 zt).state = .accumulating ∧ ∃ t, exec (edgeOp .oneLine) (acc 1 0 zt) = .next t := ⟨rfl, _, rfl⟩

theorem witness_frame_timeout :
    getLine (acc 1 0 zt).timeoutFlags (otherLine .zeroLine) = false ∧
    ∃ t, exec (timeoutOp .zeroLine) (acc 1 0 zt) = .next t := ⟨rfl, _, rfl⟩

theorem witness_frame_cancel : ∃ t, exec .cancel (acc 1 0 zt) = .next t := ⟨_, rfl⟩

theorem witness_frame_reserved :
    (∃ t, exec .reserved101 (acc 1 0 zt) = .next t) ∧ ∃ t, exec (.reserved11x .oneLine) (acc 1 0 zt) = .next t :=
  ⟨⟨_, rfl⟩, _, rfl⟩

theorem witness_frame_extract : ∃ t, exec (.extract 1 1) (acc 1 0 zt) = .next t := ⟨_, rfl⟩

/-- An open frame that meets the invariant and completes in the next step. -/
theorem witness_everyStepKeepsTheInvariant :
    (present (.ev 0b010 []) (acc 4 10 ot)).Inv ∧ ∃ t, step (present (.ev 0b010 []) (acc 4 10 ot)) = .next t :=
  ⟨by decide, _, rfl⟩

theorem witness_constructedStatesMeetTheInvariant : ∃ t, construct defaultConfiguration = .next t := ⟨_, rfl⟩

theorem witness_emissionNeedsBothTimeouts :
    ∃ t c, exec .tmo1 (acc 1 0 zt) = .next t ∧ t.out.emit = some c ∧ (acc 1 0 zt).Inv := ⟨_, _, rfl, rfl, by decide⟩

theorem witness_noEmissionWithoutAnEdge :
    State.reset.state = .idle ∧ Instr.edge0 ∉ [Instr.tmo0, .tmo1, .cancel] ∧ Instr.edge1 ∉ [Instr.tmo0, .tmo1, .cancel] := by
  decide

theorem witness_timerCommands_arm : ∃ t, exec .edge0 State.reset = .next t ∧ t.out.arm ≠ noLine := ⟨_, rfl, by decide⟩

theorem witness_timerCommands_fx :
    (∃ t, exec (.extract 1 1) State.reset = .next t ∧ t.out.fx = some (extractFields State.reset.cfg.fmt 1 1)) ∧
    ∃ t, exec .tmo0 { State.reset with out := { Outputs.none with fx := some (extractFields defaultFmt 1 1) } } = .next t ∧
      t.out.fx = none := ⟨⟨_, rfl, rfl⟩, _, rfl, rfl⟩

theorem witness_timerCommands_disarm :
    (∃ t, exec .tmo1 (acc 1 0 zt) = .next t ∧ t.out.disarm ≠ noLine) ∧
    ∃ t, exec .cancel (acc 1 0 zt) = .next t ∧ t.out.disarm ≠ noLine := ⟨⟨_, rfl, by decide⟩, _, rfl, by decide⟩

theorem witness_firstBitReceivedIsMostSignificant :
    State.reset.live = true ∧ State.reset.state = .idle ∧ [false, true, true, false] ≠ [] ∧
    3 < [false, true, true, false].length := by decide

theorem witness_frameLaw :
    State.reset.live = true ∧ State.reset.state = .idle ∧ [true] ≠ [] ∧
    exceedsValueW State.reset.cfg [true].length = false ∧ exceedsValueW defaultConfiguration 64 = false := by decide

theorem witness_oneBitLaw :
    State.reset.live = true ∧ State.reset.state = .idle ∧ fmtWf State.reset.cfg.fmt = true ∧
    fmtIsV7 State.reset.cfg.fmt = true := by decide

theorem witness_terminationNeedsNoFreshTimeout :
    (acc 1 1 zt).live = true ∧ (acc 1 1 zt).state = .accumulating ∧
    getLine (acc 1 1 zt).timeoutFlags (otherLine .oneLine) = true ∧ State.reset.live = true ∧
    State.reset.state = .idle := by decide

theorem witness_cancelledInstanceStaysDetached :
    dead.live = false ∧ ∃ t : State, Sys2Proof.core.run 2 (withStream [.edge1, .cancel] dead) = .next t := ⟨rfl, _, rfl⟩

theorem witness_cancellationRaceLeavesNoPartialEmission :
    Instr.tmo0 ∈ [Instr.edge0, .edge1, .tmo0, .tmo1] ∧ (acc 4 10 ot).live = true := by decide

theorem witness_interleavingCanDecideTheCodeword : State.reset.live = true ∧ State.reset.state = .idle := by decide

theorem witness_perLineOrderDecidesTheFrame :
    (acc 1 1 zt).live = true ∧ (acc 1 1 zt).state = .accumulating ∧
    getLine (acc 1 1 zt).timeoutFlags (otherLine .oneLine) = true := by decide

theorem witness_silentLinesEmitTheOpenFrame :
    (acc 3 5 noLine).live = true ∧ (acc 3 5 noLine).state = .accumulating ∧ (acc 3 5 noLine).timeoutFlags ≠ bothLines ∧
    (∀ i ∈ [Instr.tmo1, .tmo1, .tmo0], i = .tmo0 ∨ i = .tmo1) ∧ Instr.tmo0 ∈ [Instr.tmo1, .tmo1, .tmo0] ∧
    Instr.tmo1 ∈ [Instr.tmo1, .tmo1, .tmo0] := by decide

theorem witness_runsFollowTheChosenInterleaving : ∃ t, runOps [.edge0, .tmo0] State.reset = .next t := ⟨_, rfl⟩

theorem witness_finiteRealisationAgreesWithTheReference :
    (∃ t : State, Sys2Proof.core.run 1 (withStream [.edge0] (finite (acc 64 0 noLine))) = .next t) ∧
    ∃ t, exec .edge0 (finite (acc 63 0 noLine)) = .next t ∧ exceedsValueW (finite (acc 63 0 noLine)).cfg t.bitCount = false :=
  ⟨⟨_, rfl⟩, _, rfl, by decide⟩

theorem witness_emittedCodewordsCanBeExtracted :
    (present (.ev 0b011 []) (acc 1 0 zt)).Inv ∧ fmtWf (present (.ev 0b011 []) (acc 1 0 zt)).cfg.fmt = true ∧
    ∃ t c, step (present (.ev 0b011 []) (acc 1 0 zt)) = .next t ∧ t.out.emit = some c :=
  ⟨by decide, by decide, _, _, rfl, rfl⟩

theorem witness_pseudoInstructionsExpandAsTabled :
    expand (.bits ['0', '1']) = some [.edge0, .edge1] ∧ bitsOfChars ['0', '1'] = some [false, true] ∧
    expand (.frame ['0', '1']) = some [.edge0, .edge1, .tmo0, .tmo1] ∧ State.reset.live = true ∧
    State.reset.state = .idle := by decide

theorem witness_configurationIsFixedForTheLifetime :
    (∃ t, construct defaultConfiguration = .next t) ∧
    ∃ t : State, Sys2Proof.core.run 2 (withStream [.edge0, .extract 26 5] (finite State.reset)) = .next t :=
  ⟨⟨_, rfl⟩, _, rfl⟩

/-- A v7 table other than the default one: every slice and header of the default differs. -/
def otherFmt : FormatTable :=
  [26, 35, 37].map fun n => (n, { fc := ⟨0, 0⟩, cn := ⟨1, 1⟩, cnnf := ⟨0, 1⟩, header := List.replicate (64 - n) false })

theorem witness_fieldClaimsNeedAStatedTable :
    (∃ t, exec (.extract 26 5) State.reset = .next t) ∧
    fmtLookup defaultFmt 26 = fmtLookup [(26, descriptor26)] 26 ∧ 37 ∈ [26, 35, 37] :=
  ⟨⟨_, rfl⟩, by decide, by decide⟩

theorem test_other_table_is_a_v7_table : fmtWf otherFmt = true ∧ fmtIsV7 otherFmt = true := by decide

/-- At the width's boundary: a full frame of 64 ones, not overflowed. -/
theorem witness_emitPortCarriesTheCodewordInItsWidths :
    (finite (acc 64 (2 ^ 64 - 1) ot)).Inv ∧ (finite (acc 64 (2 ^ 64 - 1) ot)).WidthKeptOrRecorded ∧
    (finite (acc 64 (2 ^ 64 - 1) ot)).cfg.widths = some defaultWidths ∧ widthsWf defaultWidths = true ∧
    (finite (acc 64 (2 ^ 64 - 1) ot)).faults.any isOverflow = false ∧
    ∃ t, exec .tmo0 (finite (acc 64 (2 ^ 64 - 1) ot)) = .next t ∧ (emitPort defaultWidths t.out).valid = true :=
  ⟨by decide, by decide, rfl, by decide, rfl, _, rfl, rfl⟩

theorem witness_emitPort_noEmission :
    (emitPort defaultWidths Outputs.none).valid = false ∧
    ∃ t, exec .tmo0 (finite (acc 4 10 ot)) = .next t ∧ t.out.emit = some ⟨4, 10⟩ := ⟨rfl, _, rfl, rfl⟩

theorem witness_widthIsNeverExceededSilently :
    (present (.ev 0b001 []) (finite (acc 64 0 noLine))).WidthKeptOrRecorded ∧
    (∃ t, step (present (.ev 0b001 []) (finite (acc 64 0 noLine))) = .next t) ∧
    (∃ t, construct defaultConfiguration = .next t) ∧ (finite (acc 64 0 noLine)).Inv ∧
    (finite (acc 64 0 noLine)).faults.any isOverflow = false ∧
    (finite (acc 64 0 noLine)).cfg.widths = some defaultWidths ∧ widthsWf defaultWidths = true :=
  ⟨by decide, ⟨_, rfl⟩, ⟨_, rfl⟩, by decide, rfl, rfl, by decide⟩

end Sys2Proof.Tests
end

section
/-! PROOFS. What a step runs, that the configuration stays, and what is recorded within the width. -/

namespace Sys2Proof.Machine

/-- R32: no instruction writes the configuration. -/
theorem exec_cfg {i : Instr} {s t : State} (h : exec i s = .next t) : t.cfg = s.cfg := by
  rcases exec_next_cases h with ⟨rfl, -, -⟩ | ⟨rfl, -, -, -⟩ | ⟨l, -, -, -, rfl⟩ | ⟨l, -, -, -, rfl⟩ |
    ⟨l, -, -, -, -, rfl⟩ | ⟨l, -, -, -, -, rfl⟩ | ⟨-, -, rfl⟩ | ⟨w, -, rfl⟩ | ⟨n, v, -, -, -, rfl⟩ <;> rfl

/-- With no input left, a step waits (R198, R211). -/
theorem step_of_stream_nil {s : State} (h : s.stream = []) : step s = .next (quiet s) := by
  simp only [step, fetch, h, waitForEvent]

/-- A step runs the instruction its input decodes to, with that input consumed (R31, R100). -/
theorem step_of_decode {s : State} {inp : Input} {rest : List Input} {i : Instr} (hs : s.stream = inp :: rest)
    (hd : decode inp = .ok i) : step s = exec i { s with stream := rest } := by
  simp only [step, fetch, hs, hd]

theorem step_cfg {s t : State} (h : step s = .next t) : t.cfg = s.cfg := by
  rcases step_next_cases h with ⟨-, rfl⟩ | ⟨inp, rest, i, -, -, hx⟩
  · rfl
  · exact (exec_cfg hx :)

/-- The records after an instruction that overflows no width: a reserved word adds its own (R182). -/
def recordOfWord : Instr → List FaultRecord → List FaultRecord
  | .reserved101, f => insertFault (.reservedEvent 0b101) f
  | .reserved11x l, f => insertFault (.reservedEvent (eventWord 0b11 (lineBit l))) f
  | _, f => f

@[simp] theorem recordOfWord_edgeOp (l : Line) (f : List FaultRecord) : recordOfWord (edgeOp l) f = f := by
  cases l <;> rfl

@[simp] theorem recordOfWord_timeoutOp (l : Line) (f : List FaultRecord) : recordOfWord (timeoutOp l) f = f := by
  cases l <;> rfl

@[simp] theorem recordOfWord_cancel (f : List FaultRecord) : recordOfWord .cancel f = f := rfl

/-- Where the new count does not exceed the width, an append records nothing (R107). -/
theorem faultsAfterAppend_within {s : State} {n : Nat} (h : exceedsValueW s.cfg n = false) :
    faultsAfterAppend s n = s.faults := by
  simp [faultsAfterAppend, h]

/-- Within the width, only a reserved word is recorded (R182, R183). -/
theorem exec_faults_within {i : Instr} {s t : State} (h : exec i s = .next t)
    (hw : exceedsValueW s.cfg t.bitCount = false) : t.faults = recordOfWord i s.faults := by
  rcases exec_next_cases h with ⟨rfl, -, hi⟩ | ⟨rfl, -, -, l, rfl⟩ | ⟨l, rfl, -, -, rfl⟩ | ⟨l, rfl, -, -, rfl⟩ |
    ⟨l, rfl, -, -, -, rfl⟩ | ⟨l, rfl, -, -, -, rfl⟩ | ⟨rfl, -, rfl⟩ | ⟨w, hi, rfl⟩ | ⟨n, v, rfl, -, -, rfl⟩
  · rcases hi with ⟨l, rfl⟩ | ⟨l, rfl⟩ | rfl <;> simp
  · simp
  · simp
  · simpa using faultsAfterAppend_within hw
  · simp
  · simp
  · simp
  · rcases hi with ⟨rfl, rfl⟩ | ⟨l, rfl, rfl⟩ <;> rfl
  · rfl

end Sys2Proof.Machine
end

section
/-! PROOFS. O53: the width of a finite instance is kept or its overflow is recorded (R8, R107, R183). -/

namespace Sys2Proof.Machine

/-- A frame no longer than before, with no record dropped, stays within the width or recorded. -/
theorem widthKeptOrRecorded_of_le {s t : State} (hs : s.WidthKeptOrRecorded) (hc : t.cfg = s.cfg)
    (hn : t.bitCount ≤ s.bitCount) (hf : ∀ r ∈ s.faults, r ∈ t.faults) : t.WidthKeptOrRecorded := by
  intro w hw hwf
  rw [hc] at hw
  refine (hs w hw hwf).imp hn.trans fun hany => ?_
  obtain ⟨r, hr, ho⟩ := List.any_eq_true.mp hany
  exact List.any_eq_true.mpr ⟨r, hf r hr, ho⟩

/-- A frame of at most one bit fits every width within R7's bounds. -/
theorem widthKeptOrRecorded_of_le_one {s : State} (h : s.bitCount ≤ 1) : s.WidthKeptOrRecorded := by
  intro w _ hwf
  simp only [widthsWf, Bool.and_eq_true, decide_eq_true_eq] at hwf
  exact .inl (by omega)

/-- An append past the width records its overflow (R107, R183), whatever the state before it. -/
theorem bitAppend_widthKeptOrRecorded (l : Line) (s : State) : (bitAppend l s).WidthKeptOrRecorded := by
  intro w hw _
  rcases Nat.lt_or_ge w.valueW (s.bitCount + 1) with hlt | hle
  · have hx : exceedsValueW s.cfg (s.bitCount + 1) = true := by
      simp [exceedsValueW, show s.cfg.widths = some w from hw, hlt]
    exact .inr (List.any_eq_true.mpr ⟨_, (mem_faultsAfterAppend ..).mpr (.inr ⟨hx, rfl⟩), rfl⟩)
  · exact .inl hle

theorem exec_widthKeptOrRecorded {i : Instr} {s t : State} (hs : s.WidthKeptOrRecorded) (h : exec i s = .next t) :
    t.WidthKeptOrRecorded := by
  rcases exec_next_cases h with ⟨rfl, -, -⟩ | ⟨rfl, -, -, -⟩ | ⟨l, -, -, -, rfl⟩ | ⟨l, -, -, -, rfl⟩ |
    ⟨l, -, -, -, -, rfl⟩ | ⟨l, -, -, -, -, rfl⟩ | ⟨-, -, rfl⟩ | ⟨w, -, rfl⟩ | ⟨n, v, -, -, -, rfl⟩
  · exact hs
  · exact hs
  · exact widthKeptOrRecorded_of_le_one (Nat.le_refl 1)
  · exact bitAppend_widthKeptOrRecorded l s
  · exact widthKeptOrRecorded_of_le_one (Nat.zero_le 1)
  · exact hs
  · exact widthKeptOrRecorded_of_le_one (Nat.zero_le 1)
  · exact widthKeptOrRecorded_of_le hs rfl (Nat.le_refl _) fun r hr => (mem_insertFault ..).mpr (.inr hr)
  · exact hs

theorem step_widthKeptOrRecorded {s t : State} (hs : s.WidthKeptOrRecorded) (h : step s = .next t) :
    t.WidthKeptOrRecorded := by
  rcases step_next_cases h with ⟨-, rfl⟩ | ⟨inp, rest, i, -, -, hx⟩
  · exact hs
  · exact exec_widthKeptOrRecorded (s := { s with stream := rest }) hs hx

theorem construct_next {c : Configuration} {t : State} (h : construct c = .next t) :
    configurationWf c = true ∧ t = State.constructed c := by
  unfold construct at h
  split at h
  · rename_i hwf; cases h; exact ⟨hwf, rfl⟩
  · cases h

/-- R22: the invariant keeps `value` within `bitCount` bits, in either control state. -/
theorem value_lt_of_inv {s : State} (h : s.Inv) : s.value < 2 ^ s.bitCount := by
  obtain ⟨hidle, hopen, -⟩ := h
  cases hs : s.state with
  | idle => obtain ⟨hn, hv, -⟩ := hidle hs; simp [hn, hv]
  | accumulating => obtain ⟨-, -, hv, -⟩ := hopen hs; exact hv

theorem exists_onBus_of_lt {width x : Nat} (h : x < 2 ^ width) : ∃ b, onBus width x = some b ∧ b.toNat = x :=
  ⟨_, onBus_of_lt h, onBus_toNat (onBus_of_lt h)⟩

/-- Settles O53: the step invariant case by case, and R7's bounds make the registers wide enough for what it allows. -/
theorem widthIsNeverExceededSilently : Obligations.WidthIsNeverExceededSilently := by
  unfold Obligations.WidthIsNeverExceededSilently
  refine ⟨fun s t => step_widthKeptOrRecorded, fun c t h => ?_, fun s w hinv hs hw hwf hno => ?_⟩
  · obtain ⟨-, rfl⟩ := construct_next h
    exact widthKeptOrRecorded_of_le_one (Nat.zero_le 1)
  · have hle : s.bitCount ≤ w.valueW := (hs w hw hwf).resolve_right (by simp [hno])
    simp only [widthsWf, Bool.and_eq_true, decide_eq_true_eq] at hwf
    have hcount : s.bitCount < 2 ^ w.countW := by omega
    have hvalue : s.value < 2 ^ w.valueW := (value_lt_of_inv hinv).trans_le (Nat.pow_le_pow_right (by decide) hle)
    exact ⟨exists_onBus_of_lt hcount, exists_onBus_of_lt hvalue⟩

end Sys2Proof.Machine
end

section
/-! PROOFS. O47: a finite realisation against the reference model (R8). The two differ in the widths and, past a width,
in the records; so the simulation relates a state to the same state with any record and any configuration of its table. -/

namespace Sys2Proof.Machine

/-- EXTRACT answers every request within the contract, under a well-formed table (R150). -/
theorem exec_extract_of_lt {n v : Nat} {s : State} (hv : v < 2 ^ n) (hf : fmtWf s.cfg.fmt = true) :
    exec (.extract n v) s = .next (deliverFx (extractFields s.cfg.fmt n v) s) := by
  simp [exec, execExtract, meetsContract, hv, hf]

/-- The same machine with another configuration and fault record. -/
def withRecord (c : Configuration) (f : List FaultRecord) (s : State) : State := { s with cfg := c, faults := f }

/-- The reference model beside an instance is the instance with the widths left out. -/
theorem asReference_eq_withRecord (s : State) :
    asReference s = withRecord { s.cfg with widths := none } s.faults s := rfl

section
variable (c : Configuration) (f : List FaultRecord) (s : State) (l : Line)

@[simp] theorem withRecord_regs : (withRecord c f s).regs = s.regs := rfl

@[simp] theorem withRecord_out : (withRecord c f s).out = s.out := rfl

@[simp] theorem withRecord_state : (withRecord c f s).state = s.state := rfl

@[simp] theorem withRecord_timeoutFlags : (withRecord c f s).timeoutFlags = s.timeoutFlags := rfl

@[simp] theorem withRecord_live : (withRecord c f s).live = s.live := rfl

@[simp] theorem withRecord_cfg : (withRecord c f s).cfg = c := rfl

@[simp] theorem withRecord_stream : (withRecord c f s).stream = s.stream := rfl

@[simp] theorem quiet_withRecord : quiet (withRecord c f s) = withRecord c f (quiet s) := rfl

@[simp] theorem frameComplete_withRecord : frameComplete (withRecord c f s) = withRecord c f (frameComplete s) := rfl

@[simp] theorem timeoutSet_withRecord : timeoutSet l (withRecord c f s) = withRecord c f (timeoutSet l s) := rfl

@[simp] theorem teardown_withRecord : teardown (withRecord c f s) = withRecord c f (teardown s) := rfl

/-- An edge does the same to the registers and outputs; its record may differ, since an append reads the width. -/
theorem edge_withRecord : ∃ g, edge l (withRecord c f s) = withRecord c g (edge l s) := by
  obtain ⟨ctl, n, v, flags, armed, live, faults, out, cfg, stream⟩ := s
  cases live
  · exact ⟨_, rfl⟩
  · cases ctl <;> exact ⟨_, rfl⟩

theorem timeout_withRecord : timeout l (withRecord c f s) = withRecord c f (timeout l s) := by
  cases hl : s.live
  · simp [timeout, hl]
  · cases hs : s.state
    · simp [timeout, hl, hs]
    · cases hf : completesFrame s.timeoutFlags l <;> simp [timeout, hl, hs, hf]

theorem cancel_withRecord : cancel (withRecord c f s) = withRecord c f (cancel s) := by
  cases hl : s.live <;> simp [cancel, hl]

end

section
variable {c : Configuration} {s t : State}

/-- The commuting diagram for instructions: no meaning reads the record or a width, except to write the record. -/
theorem exec_withRecord {i : Instr} (hc : c.fmt = s.cfg.fmt) (f : List FaultRecord) (h : exec i s = .next t) :
    ∃ g, exec i (withRecord c f s) = .next (withRecord c g t) := by
  cases i with
  | edge0 => cases h; exact (edge_withRecord c f s .zeroLine).imp fun _ => congrArg _
  | edge1 => cases h; exact (edge_withRecord c f s .oneLine).imp fun _ => congrArg _
  | tmo0 => cases h; exact ⟨f, congrArg _ (timeout_withRecord c f s .zeroLine)⟩
  | tmo1 => cases h; exact ⟨f, congrArg _ (timeout_withRecord c f s .oneLine)⟩
  | cancel => cases h; exact ⟨f, congrArg _ (cancel_withRecord c f s)⟩
  | reserved101 => cases h; exact ⟨_, rfl⟩
  | reserved11x l => cases h; exact ⟨_, rfl⟩
  | extract n v =>
    rcases execExtract_cases n v s with ⟨-, e⟩ | ⟨-, -, e⟩ | ⟨hv, hf, e⟩
    · cases e.symm.trans h
    · cases e.symm.trans h
    · cases e.symm.trans h
      have hx := exec_extract_of_lt (s := withRecord c f s) hv (by rwa [withRecord_cfg, hc])
      rw [withRecord_cfg, hc] at hx
      exact ⟨f, hx⟩

/-- The commuting diagram for steps. -/
theorem step_withRecord (hc : c.fmt = s.cfg.fmt) (f : List FaultRecord) (h : step s = .next t) :
    ∃ g, step (withRecord c f s) = .next (withRecord c g t) := by
  rcases step_next_cases h with ⟨hs, rfl⟩ | ⟨inp, rest, i, hs, hd, hx⟩
  · exact ⟨f, step_of_stream_nil hs⟩
  · obtain ⟨g, hg⟩ := exec_withRecord (s := { s with stream := rest }) hc f hx
    exact ⟨g, (step_of_decode (s := withRecord c f s) hs hd).trans hg⟩

/-- The diagram followed back: where the changed machine steps, so does the one it was changed from. -/
theorem step_of_step_withRecord (hc : c.fmt = s.cfg.fmt) (f : List FaultRecord)
    (h : step (withRecord c f s) = .next t) : ∃ u, step s = .next u := by
  obtain ⟨g, hg⟩ := step_withRecord (c := s.cfg) hc.symm s.faults h
  exact ⟨_, hg⟩

/-- A run that completes began with a step. -/
theorem core_run_succ_next {k : Nat} {s t : State} (h : Sys2Proof.core.run (k + 1) s = .next t) :
    ∃ u, step s = .next u ∧ Sys2Proof.core.run k u = .next t := by
  cases hs : Sys2Proof.core.step s with
  | next u => exact ⟨u, hs, by rwa [core_run_succ hs] at h⟩
  | fault r => cases r
  | refused r => simp [Host.Core.run, hs] at h

/-- A run that cannot begin emits nothing. -/
theorem emissions_of_no_next {s : State} (k : Nat) (h : ¬ ∃ t, step s = .next t) : emissions k s = [] := by
  cases k with
  | zero => rfl
  | succ k =>
    cases hs : step s with
    | next t => exact absurd ⟨t, hs⟩ h
    | fault r => cases r
    | refused r => simp only [emissions, hs]

/-- R8: what a run emits depends on no width and no record. -/
theorem emissions_withRecord (k : Nat) (hc : c.fmt = s.cfg.fmt) (f : List FaultRecord) :
    emissions k (withRecord c f s) = emissions k s := by
  induction k generalizing s f with
  | zero => rfl
  | succ k ih =>
    by_cases hn : ∃ t, step s = .next t
    · obtain ⟨t, ht⟩ := hn
      obtain ⟨g, hg⟩ := step_withRecord hc f ht
      rw [emissions_succ ht, emissions_succ hg, withRecord_out, ih (hc.trans (by rw [step_cfg ht]))]
    · have hn' : ¬ ∃ t, step (withRecord c f s) = .next t := fun ⟨_, h⟩ => hn (step_of_step_withRecord hc f h)
      rw [emissions_of_no_next _ hn, emissions_of_no_next _ hn']

/-- R8: a run that completes leaves the same state but for the record. -/
theorem core_run_withRecord (k : Nat) (hc : c.fmt = s.cfg.fmt) (f : List FaultRecord)
    (h : Sys2Proof.core.run k s = .next t) :
    ∃ g, Sys2Proof.core.run k (withRecord c f s) = .next (withRecord c g t) := by
  induction k generalizing s f with
  | zero => cases h; exact ⟨f, rfl⟩
  | succ k ih =>
    obtain ⟨u, hu, hrun⟩ := core_run_succ_next h
    obtain ⟨g, hg⟩ := step_withRecord hc f hu
    rw [core_run_succ hg]
    exact ih (hc.trans (by rw [step_cfg hu])) g hrun

/-- Within the width the record agrees too: neither machine records an overflow (R107, R183). -/
theorem exec_asReference {i : Instr} (h : exec i s = .next t) (hw : exceedsValueW s.cfg t.bitCount = false) :
    exec i (asReference s) = .next (asReference t) := by
  obtain ⟨g, hg⟩ := exec_withRecord (c := { s.cfg with widths := none }) rfl s.faults h
  have hrec : g = t.faults := (exec_faults_within hg rfl).trans (exec_faults_within h hw).symm
  rw [asReference_eq_withRecord, hg, hrec, asReference_eq_withRecord, exec_cfg h]

end

/-- Settles O47: the reference model beside an instance is the instance under `withRecord`, whose diagrams carry over
single instructions, runs and emissions. -/
theorem finiteRealisationAgreesWithTheReference : Obligations.FiniteRealisationAgreesWithTheReference := by
  unfold Obligations.FiniteRealisationAgreesWithTheReference
  refine ⟨fun k s => (emissions_withRecord (c := { s.cfg with widths := none }) k rfl s.faults).symm,
    fun k s t h => ?_, fun i s t => exec_asReference⟩
  obtain ⟨g, hg⟩ := core_run_withRecord (c := { s.cfg with widths := none }) k rfl s.faults h
  exact ⟨_, hg, withRecord_regs .., withRecord_out ..⟩

end Sys2Proof.Machine
end

section
/-! PROOFS. O31, O32: the invariants of Idle and Accumulating (R29, R30), the output contracts (R83, R84) and the canonical
fault set. An operation keeps the registers, or leaves Idle and clear, or leaves a frame open; one lemma per operation. -/

namespace Sys2Proof.Machine

theorem emitContract_of_emit_none {o : Outputs} (h : o.emit = none) : o.EmitContract := by
  simp [Outputs.EmitContract, h]

/-- R84: a step that arms no timer gives no line both commands. -/
theorem oneCommand_of_arm_noLine {o : Outputs} (h : o.arm = noLine) : o.OneCommand := by
  simp [Outputs.OneCommand, h]

theorem oneCommand_of_disarm_noLine {o : Outputs} (h : o.disarm = noLine) : o.OneCommand := by
  simp [Outputs.OneCommand, h]

/-- R29, R30 speak of the registers alone, so an operation that keeps them and asserts nothing keeps the invariant. -/
theorem inv_of_regs_eq {s t : State} (hs : s.Inv) (hr : t.regs = s.regs) (ho : t.out.Silent)
    (hf : faultsWf t.faults = true) : t.Inv := by
  obtain ⟨hidle, hopen, -⟩ := hs
  obtain ⟨hemit, harm, -⟩ := ho
  obtain ⟨hst, hn, hv, hfl, ha, hl⟩ := FaRegs.mk.inj hr
  refine ⟨?_, ?_, emitContract_of_emit_none hemit, oneCommand_of_arm_noLine harm, hf⟩
  · rwa [State.IdleClear, hst, hn, hv, hfl, ha]
  · rwa [State.FrameOpen, hst, hn, hv, hfl, ha, hl]

/-- An Idle and clear state that arms no timer meets R29 and R84, and R30 says nothing of it. -/
theorem inv_of_regs_eq_clearRegs {t : State} {live : Bool} (hr : t.regs = clearRegs live) (he : t.out.EmitContract)
    (ha : t.out.arm = noLine) (hf : faultsWf t.faults = true) : t.Inv := by
  obtain ⟨hst, hn, hv, hfl, har, -⟩ := FaRegs.mk.inj hr
  exact ⟨fun _ => ⟨hn, hv, hfl, har⟩, fun h => (nomatch hst.symm.trans h), he, oneCommand_of_arm_noLine ha, hf⟩

theorem constructed_inv (c : Configuration) : (State.constructed c).Inv :=
  inv_of_regs_eq_clearRegs rfl (emitContract_of_emit_none rfl) rfl rfl

theorem flagsAfterEdge_ne_bothLines (f : LineBits) (l : Line) : flagsAfterEdge f l ≠ bothLines := by
  intro h
  have hl := getLine_setLine_same f l false
  rw [show setLine f l false = bothLines from h, getLine_bothLines] at hl
  exact nomatch hl

/-- R115: with the other line's flag clear, the timeout's flags are not `11`. -/
theorem flagsAfterTimeout_ne_bothLines {f : LineBits} {l : Line} (ho : getLine f (otherLine l) = false) :
    flagsAfterTimeout f l ≠ bothLines := by
  have hc : completesFrame f l = false := (completesFrame_eq_other f l).trans ho
  exact of_decide_eq_false hc

section
variable {s : State}

theorem quiet_inv (hs : s.Inv) : (quiet s).Inv :=
  have ⟨_, _, _, _, hf⟩ := hs
  inv_of_regs_eq hs rfl ⟨rfl, rfl, rfl⟩ hf

theorem raiseFault_inv (r : FaultRecord) (hs : s.Inv) : (raiseFault r s).Inv :=
  have ⟨_, _, _, _, hf⟩ := hs
  inv_of_regs_eq hs rfl ⟨rfl, rfl, rfl⟩ (insertFault_wf r _ hf)

theorem deliverFx_inv (r : FieldResult) (hs : s.Inv) : (deliverFx r s).Inv :=
  have ⟨_, _, _, _, hf⟩ := hs
  inv_of_regs_eq hs rfl ⟨rfl, rfl, rfl⟩ hf

theorem teardown_inv (hs : s.Inv) : (teardown s).Inv :=
  have ⟨_, _, _, _, hf⟩ := hs
  inv_of_regs_eq_clearRegs rfl (emitContract_of_emit_none rfl) rfl hf

/-- R116, R139: the frame that R30 holds open is what R83 lets be emitted. -/
theorem frameComplete_inv (hs : s.Inv) (ha : s.state = .accumulating) : (frameComplete s).Inv := by
  obtain ⟨-, hopen, -, -, hf⟩ := hs
  obtain ⟨-, hn, hv, -⟩ := hopen ha
  have he : (frameComplete s).out.EmitContract := by
    rintro c ⟨⟩
    exact ⟨hn, hv⟩
  exact inv_of_regs_eq_clearRegs rfl he rfl hf

/-- R105: a frame starts with one bit and both timers armed. -/
theorem frameStart_inv (l : Line) (hs : s.Inv) (hl : s.live = true) : (frameStart l s).Inv := by
  obtain ⟨-, -, -, -, hf⟩ := hs
  have hv : dataBit l < 2 ^ 1 := by cases l <;> decide
  exact ⟨nofun, fun _ => ⟨hl, Nat.le_refl 1, hv, rfl, noLine_ne_bothLines⟩, emitContract_of_emit_none rfl,
    oneCommand_of_disarm_noLine rfl, hf⟩

/-- R106: the count and the value grow by one bit, and the edge clears its own flag. -/
theorem bitAppend_inv (l : Line) (hs : s.Inv) (ha : s.state = .accumulating) : (bitAppend l s).Inv := by
  obtain ⟨-, hopen, -, -, hf⟩ := hs
  obtain ⟨hl, -, hv, har, -⟩ := hopen ha
  exact ⟨fun hi => (nomatch ha.symm.trans hi),
    fun _ => ⟨hl, Nat.le_add_left 1 _, appendBit_lt l hv, har, flagsAfterEdge_ne_bothLines _ l⟩,
    emitContract_of_emit_none rfl, oneCommand_of_arm_noLine rfl, faultsAfterAppend_wf s _ hf⟩

/-- R115: a timeout that does not complete the frame sets one flag only. -/
theorem timeoutSet_inv {l : Line} (hs : s.Inv) (ha : s.state = .accumulating)
    (ho : getLine s.timeoutFlags (otherLine l) = false) : (timeoutSet l s).Inv := by
  obtain ⟨-, hopen, -, -, hf⟩ := hs
  obtain ⟨hl, hn, hv, har, -⟩ := hopen ha
  exact ⟨fun hi => (nomatch ha.symm.trans hi), fun _ => ⟨hl, hn, hv, har, flagsAfterTimeout_ne_bothLines ho⟩,
    emitContract_of_emit_none rfl, oneCommand_of_arm_noLine rfl, hf⟩

end

theorem exec_inv {i : Instr} {s t : State} (hs : s.Inv) (h : exec i s = .next t) : t.Inv := by
  rcases exec_next_cases h with ⟨rfl, -, -⟩ | ⟨rfl, -, -, -⟩ | ⟨l, -, hl, -, rfl⟩ | ⟨l, -, -, ha, rfl⟩ |
    ⟨l, -, -, ha, -, rfl⟩ | ⟨l, -, -, ha, ho, rfl⟩ | ⟨-, -, rfl⟩ | ⟨w, -, rfl⟩ | ⟨n, v, -, -, -, rfl⟩
  · exact quiet_inv hs
  · exact quiet_inv hs
  · exact frameStart_inv l hs hl
  · exact bitAppend_inv l hs ha
  · exact frameComplete_inv hs ha
  · exact timeoutSet_inv hs ha ho
  · exact teardown_inv hs
  · exact raiseFault_inv _ hs
  · exact deliverFx_inv _ hs

theorem step_inv {s t : State} (hs : s.Inv) (h : step s = .next t) : t.Inv := by
  rcases step_next_cases h with ⟨-, rfl⟩ | ⟨inp, rest, i, -, -, hx⟩
  · exact quiet_inv hs
  · exact exec_inv (s := { s with stream := rest }) hs hx

/-- Settles O31: a step waits or runs one instruction, and each of its operations keeps the invariant. -/
theorem everyStepKeepsTheInvariant : Obligations.EveryStepKeepsTheInvariant := by
  unfold Obligations.EveryStepKeepsTheInvariant
  exact fun _ _ => step_inv

/-- Settles O32: the reset state is a constructed one, and those are Idle and clear. -/
theorem constructedStatesMeetTheInvariant : Obligations.ConstructedStatesMeetTheInvariant := by
  unfold Obligations.ConstructedStatesMeetTheInvariant
  refine ⟨constructed_inv referenceConfiguration, fun c t h => ?_⟩
  obtain ⟨-, rfl⟩ := construct_next h
  exact constructed_inv c

end Sys2Proof.Machine
end

section
/-! PROOFS. O29, O50, O3, O6, O21: what no instruction writes, what construction sets, what a step runs, and what FX's
result depends on (R25, R26, R31 to R34, R41). -/

namespace Sys2Proof.Machine

/-- R31: only the step consumes an input. -/
theorem exec_stream {i : Instr} {s t : State} (h : exec i s = .next t) : t.stream = s.stream := by
  rcases exec_next_cases h with ⟨rfl, -, -⟩ | ⟨rfl, -, -, -⟩ | ⟨l, -, -, -, rfl⟩ | ⟨l, -, -, -, rfl⟩ |
    ⟨l, -, -, -, -, rfl⟩ | ⟨l, -, -, -, -, rfl⟩ | ⟨-, -, rfl⟩ | ⟨w, -, rfl⟩ | ⟨n, v, -, -, -, rfl⟩ <;> rfl

/-- R26: the record only grows; an append past the width and a reserved word add to it. -/
theorem exec_keeps_faults {i : Instr} {s t : State} (h : exec i s = .next t) {r : FaultRecord} (hr : r ∈ s.faults) :
    r ∈ t.faults := by
  rcases exec_next_cases h with ⟨rfl, -, -⟩ | ⟨rfl, -, -, -⟩ | ⟨l, -, -, -, rfl⟩ | ⟨l, -, -, -, rfl⟩ |
    ⟨l, -, -, -, -, rfl⟩ | ⟨l, -, -, -, -, rfl⟩ | ⟨-, -, rfl⟩ | ⟨w, -, rfl⟩ | ⟨n, v, -, -, -, rfl⟩
  · exact hr
  · exact hr
  · exact hr
  · exact (mem_faultsAfterAppend ..).mpr (.inl hr)
  · exact hr
  · exact hr
  · exact hr
  · exact (mem_insertFault ..).mpr (.inr hr)
  · exact hr

/-- R101: an instance that is not live waits through line events and cancellations, records a reserved word, or answers
an FX request. -/
theorem exec_detached_cases {i : Instr} {s t : State} (hl : s.live = false) (h : exec i s = .next t) :
    t = quiet s ∨ (∃ w, t = raiseFault (.reservedEvent w) s) ∨ ∃ r, t = deliverFx r s := by
  rcases exec_next_cases h with ⟨rfl, -, -⟩ | ⟨rfl, -, -, -⟩ | ⟨l, -, ht, -⟩ | ⟨l, -, ht, -⟩ | ⟨l, -, ht, -⟩ |
    ⟨l, -, ht, -⟩ | ⟨-, ht, -⟩ | ⟨w, -, rfl⟩ | ⟨n, v, -, -, -, rfl⟩
  · exact .inl rfl
  · exact .inl rfl
  · exact nomatch hl.symm.trans ht
  · exact nomatch hl.symm.trans ht
  · exact nomatch hl.symm.trans ht
  · exact nomatch hl.symm.trans ht
  · exact nomatch hl.symm.trans ht
  · exact .inr (.inl ⟨w, rfl⟩)
  · exact .inr (.inr ⟨_, rfl⟩)

theorem exec_regs_of_detached {i : Instr} {s t : State} (hl : s.live = false) (h : exec i s = .next t) :
    t.regs = s.regs := by
  rcases exec_detached_cases hl h with rfl | ⟨w, rfl⟩ | ⟨r, rfl⟩ <;> rfl

/-- R25: nothing sets `live`, since an instance that is not live keeps every register. -/
theorem live_of_exec_live {i : Instr} {s t : State} (h : exec i s = .next t) (ht : t.live = true) : s.live = true := by
  by_contra hl
  have hregs : t.regs = s.regs := exec_regs_of_detached (Bool.eq_false_of_not_eq_true hl) h
  exact hl ((congrArg FaRegs.live hregs).symm.trans ht)

/-- Settles O29: one lemma per clause, each over every way an instruction completes. -/
theorem noInstructionWritesConfigurationOrRevives : Obligations.NoInstructionWritesConfigurationOrRevives := by
  unfold Obligations.NoInstructionWritesConfigurationOrRevives
  exact fun i s t h => ⟨exec_cfg h, exec_stream h, fun r => exec_keeps_faults h, live_of_exec_live h,
    fun hl => exec_regs_of_detached hl h⟩

theorem core_run_cfg {k : Nat} {s t : State} (h : Sys2Proof.core.run k s = .next t) : t.cfg = s.cfg := by
  induction k generalizing s with
  | zero => cases h; rfl
  | succ k ih =>
    obtain ⟨u, hu, hrun⟩ := core_run_succ_next h
    exact (ih hrun).trans (step_cfg hu)

/-- Settles O50: construction stores its argument, and by induction on the length of the run no step writes it. -/
theorem configurationIsFixedForTheLifetime : Obligations.ConfigurationIsFixedForTheLifetime := by
  unfold Obligations.ConfigurationIsFixedForTheLifetime
  refine ⟨fun c t h => ?_, fun k s t => core_run_cfg⟩
  obtain ⟨hwf, rfl⟩ := construct_next h
  exact ⟨hwf, rfl⟩

/-- Settles O3: the step takes the next input, and its decoding selects the meaning. -/
theorem stepRunsTheDecodedInstruction : Obligations.StepRunsTheDecodedInstruction := by
  unfold Obligations.StepRunsTheDecodedInstruction
  exact fun s inp rest i => step_of_decode

/-- R210: a well-formed configuration is accepted. -/
theorem construct_of_wf {c : Configuration} (h : configurationWf c = true) :
    construct c = .next (State.constructed c) := if_pos h

/-- Settles O6: the constructed state is written out field by field, at the values of R41. -/
theorem constructionSetsTheResetValues : Obligations.ConstructionSetsTheResetValues := by
  unfold Obligations.ConstructionSetsTheResetValues
  exact fun c h => ⟨_, construct_of_wf h, rfl, rfl, rfl, rfl, rfl, rfl, rfl, ⟨rfl, rfl, rfl⟩, rfl, rfl⟩

/-- R157: where FX answers, its result is computed from the request and the instance's own table. -/
theorem exec_extract_fx {n v : Nat} {s t : State} (h : exec (.extract n v) s = .next t) :
    t.out.fx = some (extractFields s.cfg.fmt n v) := by
  rcases execExtract_cases n v s with ⟨-, e⟩ | ⟨-, -, e⟩ | ⟨-, -, e⟩
  · cases e.symm.trans h
  · cases e.symm.trans h
  · cases e.symm.trans h; rfl

/-- Settles O21: both results are the one function of the table and the request. -/
theorem extractDependsOnRequestAndTableOnly : Obligations.ExtractDependsOnRequestAndTableOnly := by
  unfold Obligations.ExtractDependsOnRequestAndTableOnly
  intro s s' t t' n v hfmt h h'
  rw [exec_extract_fx h, exec_extract_fx h', hfmt]

end Sys2Proof.Machine
end

section
/-! PROOFS. O46: a sequence of operations runs one instruction after the other (R13, R58). No meaning reads the input
stream, so an instruction does the same whatever the environment presents after it. -/

namespace Sys2Proof.Machine

/-- The same machine with other inputs still to come. -/
def withInputs (inputs : List Input) (s : State) : State := { s with stream := inputs }

theorem withStream_eq_withInputs (is : List Instr) (s : State) : withStream is s = withInputs (is.map encode) s := rfl

section
variable (inputs : List Input) (s : State)

theorem edge_withInputs (l : Line) : edge l (withInputs inputs s) = withInputs inputs (edge l s) := by
  obtain ⟨ctl, n, v, flags, armed, live, faults, out, cfg, stream⟩ := s
  cases live
  · rfl
  · cases ctl <;> rfl

theorem timeout_withInputs (l : Line) : timeout l (withInputs inputs s) = withInputs inputs (timeout l s) := by
  obtain ⟨ctl, n, v, flags, armed, live, faults, out, cfg, stream⟩ := s
  cases live
  · rfl
  · cases ctl
    · rfl
    · cases hf : completesFrame flags l <;> simp only [timeout, withInputs, hf] <;> rfl

theorem cancel_withInputs : cancel (withInputs inputs s) = withInputs inputs (cancel s) := by
  obtain ⟨ctl, n, v, flags, armed, live, faults, out, cfg, stream⟩ := s
  cases live <;> rfl

end

/-- The commuting diagram for instructions: no meaning reads or writes the stream. -/
theorem exec_withInputs {i : Instr} {s t : State} (inputs : List Input) (h : exec i s = .next t) :
    exec i (withInputs inputs s) = .next (withInputs inputs t) := by
  cases i with
  | edge0 => cases h; exact congrArg _ (edge_withInputs inputs s .zeroLine)
  | edge1 => cases h; exact congrArg _ (edge_withInputs inputs s .oneLine)
  | tmo0 => cases h; exact congrArg _ (timeout_withInputs inputs s .zeroLine)
  | tmo1 => cases h; exact congrArg _ (timeout_withInputs inputs s .oneLine)
  | cancel => cases h; exact congrArg _ (cancel_withInputs inputs s)
  | reserved101 => cases h; rfl
  | reserved11x l => cases h; rfl
  | extract n v =>
    rcases execExtract_cases n v s with ⟨-, e⟩ | ⟨-, -, e⟩ | ⟨hv, hf, e⟩
    · cases e.symm.trans h
    · cases e.symm.trans h
    · cases e.symm.trans h
      exact exec_extract_of_lt (s := withInputs inputs s) hv hf

/-- The diagram followed back, by putting the old stream back. -/
theorem exec_of_exec_withInputs {i : Instr} {s t : State} {inputs : List Input}
    (h : exec i (withInputs inputs s) = .next t) : exec i s = .next (withInputs s.stream t) :=
  exec_withInputs (s := withInputs inputs s) s.stream h

/-- R73, R77: the input that presents an instruction decodes to it. -/
theorem decode_encode (i : Instr) : decode (encode i) = .ok i := by
  cases i with
  | reserved11x l => cases l <;> rfl
  | _ => rfl

/-- The first step of a sequence runs its first instruction. -/
theorem step_withStream_cons (i : Instr) (is : List Instr) (s : State) :
    step (withStream (i :: is) s) = exec i (withStream is s) :=
  step_of_decode (s := withStream (i :: is) s) rfl (decode_encode i)

section
variable {i : Instr} {is : List Instr} {s t : State}

theorem step_withStream_cons_of_exec (h : exec i s = .next t) :
    step (withStream (i :: is) s) = .next (withStream is t) := by
  rw [step_withStream_cons, withStream_eq_withInputs, withStream_eq_withInputs, exec_withInputs _ h]

theorem exec_of_step_withStream_cons (h : step (withStream (i :: is) s) = .next t) : ∃ u, exec i s = .next u := by
  rw [step_withStream_cons, withStream_eq_withInputs] at h
  exact ⟨_, exec_of_exec_withInputs h⟩

theorem runOps_nil (s : State) : runOps [] s = .next (withStream [] s) := rfl

@[simp] theorem emitted_nil (s : State) : emitted [] s = [] := rfl

/-- Running `i :: is` is running `i` and then `is` (R58). -/
theorem runOps_cons (h : exec i s = .next t) : runOps (i :: is) s = runOps is t :=
  core_run_succ (step_withStream_cons_of_exec h)

/-- What `i :: is` emits is what `i` emits and then what `is` emits (R58, R61). -/
theorem emitted_cons (h : exec i s = .next t) : emitted (i :: is) s = t.out.emit.toList ++ emitted is t :=
  emissions_succ (step_withStream_cons_of_exec h)

/-- A run that completes began with its first instruction. -/
theorem runOps_cons_next (h : runOps (i :: is) s = .next t) : ∃ u, exec i s = .next u ∧ runOps is u = .next t := by
  obtain ⟨_, hstep, -⟩ := core_run_succ_next h
  obtain ⟨u, hu⟩ := exec_of_step_withStream_cons hstep
  exact ⟨u, hu, (runOps_cons hu).symm.trans h⟩

/-- A sequence whose first instruction is refused emits nothing. -/
theorem emitted_cons_of_no_next (h : ¬ ∃ t, exec i s = .next t) : emitted (i :: is) s = [] :=
  emissions_of_no_next _ fun ⟨_, hstep⟩ => h (exec_of_step_withStream_cons hstep)

end

section
variable {a : List Instr} {s t : State} (b : List Instr)

theorem runOps_append (h : runOps a s = .next t) : runOps (a ++ b) s = runOps b t := by
  induction a generalizing s with
  | nil => cases h; rfl
  | cons i a ih =>
    obtain ⟨u, hu, hrun⟩ := runOps_cons_next h
    rw [List.cons_append, runOps_cons hu, ih hrun]

theorem emitted_append (h : runOps a s = .next t) : emitted (a ++ b) s = emitted a s ++ emitted b t := by
  induction a generalizing s with
  | nil => cases h; rfl
  | cons i a ih =>
    obtain ⟨u, hu, hrun⟩ := runOps_cons_next h
    rw [List.cons_append, emitted_cons hu, emitted_cons hu, ih hrun, List.append_assoc]

end

/-- Settles O46: by induction on the first sequence, each of whose instructions runs before the rest. -/
theorem runsFollowTheChosenInterleaving : Obligations.RunsFollowTheChosenInterleaving := by
  unfold Obligations.RunsFollowTheChosenInterleaving
  exact fun a b s t h => ⟨runOps_append b h, emitted_append b h⟩

end Sys2Proof.Machine
end

section
/-! PROOFS. O34: an Idle machine stays Idle and emits nothing until an edge (R61, R137). -/

namespace Sys2Proof.Machine

/-- While Idle, only an edge opens a frame, and only an open frame is emitted (R105, R116, R117). -/
theorem exec_idle_of_no_edge {i : Instr} {s t : State} (hs : s.state = .idle) (hi : ∀ l, i ≠ edgeOp l)
    (h : exec i s = .next t) : t.state = .idle ∧ t.out.emit = none := by
  rcases exec_next_cases h with ⟨rfl, -, -⟩ | ⟨rfl, -, -, -⟩ | ⟨l, he, -⟩ | ⟨l, he, -⟩ | ⟨l, -, -, ha, -⟩ |
    ⟨l, -, -, ha, -⟩ | ⟨-, -, rfl⟩ | ⟨w, -, rfl⟩ | ⟨n, v, -, -, -, rfl⟩
  · exact ⟨hs, rfl⟩
  · exact ⟨hs, rfl⟩
  · exact absurd he (hi l)
  · exact absurd he (hi l)
  · exact nomatch hs.symm.trans ha
  · exact nomatch hs.symm.trans ha
  · exact ⟨rfl, rfl⟩
  · exact ⟨hs, rfl⟩
  · exact ⟨hs, rfl⟩

theorem emitted_of_idle_of_no_edge {is : List Instr} {s : State} (hs : s.state = .idle)
    (hi : ∀ l, edgeOp l ∉ is) : emitted is s = [] := by
  induction is generalizing s with
  | nil => rfl
  | cons i is ih =>
    by_cases hn : ∃ t, exec i s = .next t
    · obtain ⟨t, ht⟩ := hn
      have hne : ∀ l, i ≠ edgeOp l := fun l e => hi l (e ▸ List.mem_cons_self)
      obtain ⟨hidle, hemit⟩ := exec_idle_of_no_edge hs hne ht
      rw [emitted_cons ht, hemit, ih hidle fun l hl => hi l (List.mem_cons_of_mem i hl)]
      rfl
    · exact emitted_cons_of_no_next hn

/-- Settles O34: Idle is kept, and nothing emitted, along the whole sequence. -/
theorem noEmissionWithoutAnEdge : Obligations.NoEmissionWithoutAnEdge := by
  unfold Obligations.NoEmissionWithoutAnEdge
  intro is s hs h0 h1
  refine emitted_of_idle_of_no_edge hs fun l => ?_
  cases l
  · exact h0
  · exact h1

end Sys2Proof.Machine
end

section
/-! PROOFS. What one line event does in each situation, and how it begins a sequence (R101, R105, R106, R115 to R117). -/

namespace Sys2Proof.Machine

section
variable {l : Line} {s : State}

/-- R105. -/
theorem edge_of_idle (hl : s.live = true) (hs : s.state = .idle) : edge l s = frameStart l s := by
  simp [edge, hl, hs]

/-- R106. -/
theorem edge_of_accumulating (hl : s.live = true) (hs : s.state = .accumulating) : edge l s = bitAppend l s := by
  simp [edge, hl, hs]

/-- R101, R117: with no frame open, a timeout does nothing. -/
theorem timeout_of_not_open (h : ¬ (s.live = true ∧ s.state = .accumulating)) : timeout l s = quiet s := by
  rcases timeout_cases l s with ⟨-, e⟩ | ⟨-, -, e⟩ | ⟨hl, ha, -, -⟩ | ⟨hl, ha, -, -⟩
  · exact e
  · exact e
  · exact absurd ⟨hl, ha⟩ h
  · exact absurd ⟨hl, ha⟩ h

/-- R116. -/
theorem timeout_of_other_flag_set (hl : s.live = true) (hs : s.state = .accumulating)
    (ho : getLine s.timeoutFlags (otherLine l) = true) : timeout l s = frameComplete s := by
  simp [timeout, hl, hs, completesFrame_eq_other, ho]

/-- R115. -/
theorem timeout_of_other_flag_clear (hl : s.live = true) (hs : s.state = .accumulating)
    (ho : getLine s.timeoutFlags (otherLine l) = false) : timeout l s = timeoutSet l s := by
  simp [timeout, hl, hs, completesFrame_eq_other, ho]

end

section
variable (l : Line) (is : List Instr) (s : State)

theorem exec_edgeOp : exec (edgeOp l) s = .next (edge l s) := by cases l <;> rfl

theorem exec_timeoutOp : exec (timeoutOp l) s = .next (timeout l s) := by cases l <;> rfl

theorem runOps_edgeOp_cons : runOps (edgeOp l :: is) s = runOps is (edge l s) := runOps_cons (exec_edgeOp l s)

theorem runOps_timeoutOp_cons : runOps (timeoutOp l :: is) s = runOps is (timeout l s) :=
  runOps_cons (exec_timeoutOp l s)

theorem emitted_timeoutOp_cons :
    emitted (timeoutOp l :: is) s = (timeout l s).out.emit.toList ++ emitted is (timeout l s) :=
  emitted_cons (exec_timeoutOp l s)

/-- An edge emits nothing (R105, R106). -/
theorem emitted_edgeOp_cons : emitted (edgeOp l :: is) s = emitted is (edge l s) := by
  have he : (edge l s).out.emit = none := by
    rcases edge_cases l s with ⟨-, e⟩ | ⟨-, -, e⟩ | ⟨-, -, e⟩ <;> rw [e] <;> rfl
  rw [emitted_cons (exec_edgeOp l s), he]
  rfl

end

end Sys2Proof.Machine
end

section
/-! PROOFS. O36: the bits of a frame in arrival order (R52, R53). -/

namespace Sys2Proof.Machine

/-- The line's data bit is the bit that chose the line (R12, R14). -/
@[simp] theorem dataBit_lineOfData (b : Bool) : dataBit (lineOfData b) = b.toNat := by cases b <;> rfl

/-- An open frame after further edges that carry these bits. -/
def appendBits : BitString → State → State
  | [], s => s
  | b :: bits, s => appendBits bits (bitAppend (lineOfData b) s)

section
variable (bits : BitString) (s : State)

@[simp] theorem appendBits_state : (appendBits bits s).state = s.state := by
  induction bits generalizing s with
  | nil => rfl
  | cons b bits ih => exact ih _

@[simp] theorem appendBits_bitCount : (appendBits bits s).bitCount = s.bitCount + bits.length := by
  induction bits generalizing s with
  | nil => rfl
  | cons b bits ih => simp only [appendBits, ih, bitAppend_bitCount, List.length_cons]; omega

/-- R52: the bits received before weigh more than the bits that follow. -/
theorem appendBits_value : (appendBits bits s).value = s.value * 2 ^ bits.length + parseU bits := by
  induction bits generalizing s with
  | nil => simp [appendBits]
  | cons b bits ih =>
    simp only [appendBits, ih, bitAppend_value, appendBit_eq, dataBit_lineOfData, parseU_cons, List.length_cons]
    ring

variable {s}

/-- With a frame open, edges append their bits in arrival order (R106). -/
theorem runOps_edgesOf_of_accumulating (hl : s.live = true) (hs : s.state = .accumulating) :
    runOps (edgesOf bits) s = .next (withStream [] (appendBits bits s)) := by
  induction bits generalizing s with
  | nil => rfl
  | cons b bits ih =>
    calc runOps (edgesOf (b :: bits)) s
        = runOps (edgesOf bits) (edge (lineOfData b) s) := runOps_edgeOp_cons ..
      _ = runOps (edgesOf bits) (bitAppend (lineOfData b) s) := by rw [edge_of_accumulating hl hs]
      _ = .next (withStream [] (appendBits (b :: bits) s)) := ih hl hs

/-- From Idle, the first edge opens the frame that the others append to (R105, R106). -/
theorem runOps_edgesOf_of_idle (b : Bool) (hl : s.live = true) (hs : s.state = .idle) :
    runOps (edgesOf (b :: bits)) s = .next (withStream [] (appendBits bits (frameStart (lineOfData b) s))) := by
  calc runOps (edgesOf (b :: bits)) s
      = runOps (edgesOf bits) (edge (lineOfData b) s) := runOps_edgeOp_cons ..
    _ = runOps (edgesOf bits) (frameStart (lineOfData b) s) := by rw [edge_of_idle hl hs]
    _ = _ := runOps_edgesOf_of_accumulating bits hl rfl

end

/-- Character `i` of `bin_n(v)` is bit `n − 1 − i` of `v` (R11). -/
theorem getElem?_bin {n i : Nat} (v : Nat) (h : i < n) : (bin n v)[i]? = some (v.testBit (n - 1 - i)) := by
  induction n generalizing i with
  | zero => omega
  | succ n ih =>
    cases i with
    | zero => rfl
    | succ i =>
      rw [bin, List.getElem?_cons_succ, ih (by omega)]
      congr 2
      omega

/-- `bin_m` reads no bit above the lowest `m`. -/
theorem bin_mod_two_pow {m n : Nat} (v : Nat) (h : m ≤ n) : bin m (v % 2 ^ n) = bin m v := by
  induction m with
  | zero => rfl
  | succ m ih =>
    have hm : m < n := by omega
    simp only [bin, ih hm.le, Nat.testBit_mod_two_pow, hm, decide_true, Bool.true_and]

/-- R11: the string is read back from its value, leading zeros included. -/
theorem bin_parseU (bits : BitString) : bin bits.length (parseU bits) = bits := by
  induction bits with
  | nil => rfl
  | cons b bits ih =>
    have hlt : parseU bits < 2 ^ bits.length := parseU_lt bits
    have hhead : (parseU (b :: bits)).testBit bits.length = b := by
      rw [parseU_cons, Nat.mul_comm, Nat.testBit_two_pow_mul_add _ hlt]
      cases b <;> simp
    have hmod : parseU (b :: bits) % 2 ^ bits.length = parseU bits := by
      rw [parseU_cons, Nat.mul_add_mod_of_lt hlt]
    rw [List.length_cons, bin, hhead, ← bin_mod_two_pow _ (Nat.le_refl _), hmod, ih]

/-- Settles O36: the first edge starts the frame and the others append, so `value` is the most-significant-first value
of the string, whose characters are its bits. -/
theorem firstBitReceivedIsMostSignificant : Obligations.FirstBitReceivedIsMostSignificant := by
  unfold Obligations.FirstBitReceivedIsMostSignificant
  intro s bits hl hs hne
  obtain ⟨b, rest, rfl⟩ := List.exists_cons_of_ne_nil hne
  have hrun := runOps_edgesOf_of_idle rest b hl hs
  generalize ht : withStream [] (appendBits rest (frameStart (lineOfData b) s)) = t at hrun
  have hcount : t.bitCount = (b :: rest).length := by subst ht; simp [Nat.add_comm]
  have hvalue : t.value = parseU (b :: rest) := by subst ht; simp [appendBits_value]
  have hbin : bin t.bitCount t.value = b :: rest := by rw [hcount, hvalue, bin_parseU]
  refine ⟨t, hrun, by subst ht; simp, hcount, hvalue, fun i hi => ?_, hbin⟩
  rw [← hcount] at hi ⊢
  rw [← getElem?_bin t.value hi, hbin]

end Sys2Proof.Machine
end

section
/-! PROOFS. O43, O42: two line events in both orders (R59). -/

namespace Sys2Proof.Machine

section
variable {s : State} (l : Line)

theorem emitted_timeoutOp_pair : emitted [timeoutOp l, timeoutOp (otherLine l)] s =
    (timeout l s).out.emit.toList ++ (timeout (otherLine l) (timeout l s)).out.emit.toList := by
  rw [emitted_timeoutOp_cons, emitted_timeoutOp_cons, emitted_nil, List.append_nil]

theorem runOps_timeoutOp_pair : runOps [timeoutOp l, timeoutOp (otherLine l)] s =
    .next (withStream [] (timeout (otherLine l) (timeout l s))) := by
  rw [runOps_timeoutOp_cons, runOps_timeoutOp_cons, runOps_nil]

/-- R115 to R117: with a frame open, one timeout of each line emits it exactly once and leaves Idle and clear, whichever
flags were set before. -/
theorem timeout_pair_of_open (hl : s.live = true) (hs : s.state = .accumulating) :
    emitted [timeoutOp l, timeoutOp (otherLine l)] s = [{ bitCount := s.bitCount, value := s.value }] ∧
    (timeout (otherLine l) (timeout l s)).regs = clearRegs true := by
  rw [emitted_timeoutOp_pair]
  cases ho : getLine s.timeoutFlags (otherLine l) with
  | true =>
    rw [timeout_of_other_flag_set hl hs ho, timeout_of_not_open (s := frameComplete s) (by simp)]
    exact ⟨rfl, by simp [State.regs, clearRegs, hl]⟩
  | false =>
    have hflag : getLine (timeoutSet l s).timeoutFlags (otherLine (otherLine l)) = true := by
      simp [flagsAfterTimeout]
    rw [timeout_of_other_flag_clear hl hs ho, timeout_of_other_flag_set (s := timeoutSet l s) hl hs hflag]
    exact ⟨rfl, by simp [State.regs, clearRegs, hl]⟩

/-- R101, R117: with no frame open, a timeout of each line does nothing. -/
theorem timeout_pair_of_not_open (h : ¬ (s.live = true ∧ s.state = .accumulating)) :
    emitted [timeoutOp l, timeoutOp (otherLine l)] s = [] ∧
    (timeout (otherLine l) (timeout l s)).regs = s.regs := by
  rw [emitted_timeoutOp_pair, timeout_of_not_open h, timeout_of_not_open (s := quiet s) h]
  exact ⟨rfl, rfl⟩

/-- What two timeouts on different lines emit and leave does not depend on their order. -/
theorem timeout_pair_comm :
    emitted [timeoutOp l, timeoutOp (otherLine l)] s = emitted [timeoutOp (otherLine l), timeoutOp l] s ∧
    (timeout (otherLine l) (timeout l s)).regs = (timeout l (timeout (otherLine l) s)).regs := by
  by_cases h : s.live = true ∧ s.state = .accumulating
  · obtain ⟨hl, hs⟩ := h
    obtain ⟨he, hr⟩ := timeout_pair_of_open l hl hs
    obtain ⟨he', hr'⟩ := timeout_pair_of_open (otherLine l) hl hs
    rw [otherLine_otherLine] at he' hr'
    exact ⟨he.trans he'.symm, hr.trans hr'.symm⟩
  · obtain ⟨he, hr⟩ := timeout_pair_of_not_open l h
    obtain ⟨he', hr'⟩ := timeout_pair_of_not_open (otherLine l) h
    rw [otherLine_otherLine] at he' hr'
    exact ⟨he.trans he'.symm, hr.trans hr'.symm⟩

end

/-- Settles O43: an open frame is completed once in either order, and without one neither timeout does anything. -/
theorem timeoutsOfBothLinesCommute : Obligations.TimeoutsOfBothLinesCommute := by
  unfold Obligations.TimeoutsOfBothLinesCommute
  intro s
  obtain ⟨hemit, hregs⟩ := timeout_pair_comm (s := s) .zeroLine
  exact ⟨hemit, _, _, runOps_timeoutOp_pair .zeroLine, runOps_timeoutOp_pair .oneLine, hregs⟩

section
variable {s : State} (l : Line)

/-- The frame of one bit that an edge and then a timeout on the same line leave open. -/
def oneBitFlagged (l : Line) (s : State) : State := timeoutSet l (frameStart l s)

theorem timeout_edge_of_idle (hl : s.live = true) (hs : s.state = .idle) :
    timeout l (edge l s) = oneBitFlagged l s := by
  rw [edge_of_idle hl hs]
  exact timeout_of_other_flag_clear (s := frameStart l s) hl rfl (getLine_noLine _)

/-- R116: the frame's own line is flagged, so the other line's timeout completes it. -/
theorem timeout_other_oneBitFlagged (hl : s.live = true) :
    timeout (otherLine l) (oneBitFlagged l s) = frameComplete (oneBitFlagged l s) :=
  timeout_of_other_flag_set hl rfl (by simp [oneBitFlagged, flagsAfterTimeout])

/-- R106, R115: a further edge clears the flag, so the other line's timeout completes nothing. -/
theorem timeout_other_edge_oneBitFlagged (hl : s.live = true) :
    timeout (otherLine l) (edge l (oneBitFlagged l s)) =
      timeoutSet (otherLine l) (bitAppend l (oneBitFlagged l s)) := by
  rw [edge_of_accumulating (s := oneBitFlagged l s) hl rfl]
  exact timeout_of_other_flag_clear hl rfl (by simp [flagsAfterEdge])

/-- R59, one order: the timeout completes the first frame, and the edge opens another one. -/
theorem timeout_before_edge (hl : s.live = true) (hs : s.state = .idle) :
    emitted [edgeOp l, timeoutOp l, timeoutOp (otherLine l), edgeOp l] s = [{ bitCount := 1, value := dataBit l }] ∧
    runOps [edgeOp l, timeoutOp l, timeoutOp (otherLine l), edgeOp l] s =
      .next (withStream [] (frameStart l (frameComplete (oneBitFlagged l s)))) := by
  have hstart : edge l (frameComplete (oneBitFlagged l s)) = frameStart l (frameComplete (oneBitFlagged l s)) :=
    edge_of_idle hl rfl
  constructor
  · rw [emitted_edgeOp_cons, emitted_timeoutOp_cons, timeout_edge_of_idle l hl hs, emitted_timeoutOp_cons,
      timeout_other_oneBitFlagged l hl, emitted_edgeOp_cons, emitted_nil]
    rfl
  · rw [runOps_edgeOp_cons, runOps_timeoutOp_cons, timeout_edge_of_idle l hl hs, runOps_timeoutOp_cons,
      timeout_other_oneBitFlagged l hl, runOps_edgeOp_cons, hstart, runOps_nil]

/-- R59, the other order: the edge joins the frame, which stays open. -/
theorem edge_before_timeout (hl : s.live = true) (hs : s.state = .idle) :
    emitted [edgeOp l, timeoutOp l, edgeOp l, timeoutOp (otherLine l)] s = [] ∧
    runOps [edgeOp l, timeoutOp l, edgeOp l, timeoutOp (otherLine l)] s =
      .next (withStream [] (timeoutSet (otherLine l) (bitAppend l (oneBitFlagged l s)))) := by
  constructor
  · rw [emitted_edgeOp_cons, emitted_timeoutOp_cons, timeout_edge_of_idle l hl hs, emitted_edgeOp_cons,
      emitted_timeoutOp_cons, timeout_other_edge_oneBitFlagged l hl, emitted_nil]
    rfl
  · rw [runOps_edgeOp_cons, runOps_timeoutOp_cons, timeout_edge_of_idle l hl hs, runOps_edgeOp_cons,
      runOps_timeoutOp_cons, timeout_other_edge_oneBitFlagged l hl, runOps_nil]

end

/-- Settles O42: the two orders of the last pair on ZeroLine, each an interleaving by computation. -/
theorem interleavingCanDecideTheCodeword : Obligations.InterleavingCanDecideTheCodeword := by
  unfold Obligations.InterleavingCanDecideTheCodeword
  intro s hl hs
  obtain ⟨hemit, hrun⟩ := timeout_before_edge .zeroLine hl hs
  obtain ⟨hemit', hrun'⟩ := edge_before_timeout .zeroLine hl hs
  exact ⟨hemit, hemit', ⟨_, hrun, rfl, rfl⟩, ⟨_, hrun', rfl, rfl⟩, by decide, by decide⟩

end Sys2Proof.Machine
end

section
/-! PROOFS. O1, O2: the opcode map and the encoder are inverse to each other (R73, R77). -/

namespace Sys2Proof.Machine

/-- R73: each of the eight event words is the one that its operation is presented by. -/
theorem encode_decodeWord : ∀ w : EventWord, encode (decodeWord w) = .ev w [] := by decide

/-- Only an input that presents an operation decodes to it: several words at once decode to nothing (R220). -/
theorem encode_of_decode {inp : Input} {i : Instr} (h : decode inp = .ok i) : encode i = inp := by
  cases inp with
  | fx n v => cases h; rfl
  | ev w others =>
    cases others with
    | nil => cases h; exact encode_decodeWord w
    | cons w' ws => cases h

/-- Settles O2: case by case over the instructions one way, and over the inputs, with the eight words, the other way. -/
theorem decodeAndEncodeAgree : Obligations.DecodeAndEncodeAgree := by
  unfold Obligations.DecodeAndEncodeAgree
  exact ⟨decode_encode, fun _ _ => encode_of_decode⟩

/-- Settles O1: each word is the encoding of its operation (the rows of the opcode table), which decodes to it. -/
theorem eventWordsDecodeByTheOpcodeMap : Obligations.EventWordsDecodeByTheOpcodeMap := by
  unfold Obligations.EventWordsDecodeByTheOpcodeMap
  exact ⟨decode_encode .edge0, decode_encode .edge1, decode_encode .tmo0, decode_encode .tmo1, decode_encode .cancel,
    decode_encode .reserved101, decode_encode (.reserved11x .zeroLine), decode_encode (.reserved11x .oneLine)⟩

end Sys2Proof.Machine
end

section
/-! PROOFS. O25: the hexadecimal string of `encoded` (R11, R82, R155). -/

namespace Sys2Proof.Machine

theorem hexDigit_uppercase :
    ∀ k < 16, ('0' ≤ hexDigit k ∧ hexDigit k ≤ '9') ∨ ('A' ≤ hexDigit k ∧ hexDigit k ≤ 'F') := by decide

theorem digitValue_hexDigit : ∀ k < 16, digitValue (hexDigit k) = some k := by decide

theorem mem_hex {c : Char} {d x : Nat} (h : c ∈ hex d x) : ∃ k < 16, c = hexDigit k := by
  induction d with
  | zero => cases h
  | succ d ih =>
    rcases List.mem_cons.mp h with rfl | h
    · exact ⟨_, Nat.mod_lt _ (by decide), rfl⟩
    · exact ih h

/-- `hex_d(x)` read back, after the digits read before it, keeps the low `d` digits of `x`. -/
theorem digitsValue_hex (acc d x : Nat) : digitsValue 16 acc (hex d x) = some (acc * 16 ^ d + x % 16 ^ d) := by
  induction d generalizing acc with
  | zero => simp [hex, digitsValue, Nat.mod_one]
  | succ d ih =>
    have hk : x / 16 ^ d % 16 < 16 := Nat.mod_lt _ (by decide)
    simp only [hex, digitsValue, digitValue_hexDigit _ hk, hk, if_true, ih, pow_succ, Nat.mod_mul]
    congr 1
    ring

/-- R155: the digits provided are enough for any number of `len` bits. -/
theorem two_pow_le_hexDigits (len : Nat) : 2 ^ len ≤ 16 ^ hexDigits len := by
  have h : len ≤ 4 * hexDigits len := by unfold hexDigits; omega
  calc 2 ^ len ≤ 2 ^ (4 * hexDigits len) := Nat.pow_le_pow_right (by decide) h
    _ = 16 ^ hexDigits len := pow_mul 2 4 _

/-- Settles O25: reading the digits back gives `encoded`, since its bits fit the digits provided. -/
theorem hexLosesNothing : Obligations.HexLosesNothing := by
  unfold Obligations.HexLosesNothing
  intro fmt n v
  refine ⟨length_hex .., fun c hc => ?_, ?_⟩
  · obtain ⟨k, hk, rfl⟩ := mem_hex hc
    exact hexDigit_uppercase k hk
  · have hlt : (extractFields fmt n v).encoded < 16 ^ hexDigits (extractFields fmt n v).encodedLen :=
      (parseU_lt _).trans_le (two_pow_le_hexDigits _)
    rw [extractFields_hex, digitsValue_hex, Nat.mod_eq_of_lt hlt, Nat.zero_mul, Nat.zero_add]

end Sys2Proof.Machine
end

section
/-! PROOFS. O52, O48, O17: what an emitting step puts on the `emit` port (R83), that FX answers it (R78), and what a
reserved word records (R74, R182). -/

namespace Sys2Proof.Machine

/-- R115: with the flag of `l` set, both are set exactly if the other one was. -/
theorem setLine_true_eq_bothLines (f : LineBits) (l : Line) :
    setLine f l true = bothLines ↔ getLine f (otherLine l) = true := by
  rw [← completesFrame_eq_other]
  exact decide_eq_true_iff.symm

section
variable {i : Instr} {s t : State}

/-- R116: only the completion of a frame emits, and the frame is open with the other line's flag set. -/
theorem exec_emitting (h : exec i s = .next t) (he : t.out.emit.isSome = true) :
    s.live = true ∧ s.state = .accumulating ∧
      (∃ l, i = timeoutOp l ∧ getLine s.timeoutFlags (otherLine l) = true) ∧ t = frameComplete s := by
  rcases exec_next_cases h with ⟨rfl, -, -⟩ | ⟨rfl, -, -, -⟩ | ⟨l, -, -, -, rfl⟩ | ⟨l, -, -, -, rfl⟩ |
    ⟨l, hi, hl, ha, ho, rfl⟩ | ⟨l, -, -, -, -, rfl⟩ | ⟨-, -, rfl⟩ | ⟨w, -, rfl⟩ | ⟨n, v, -, -, -, rfl⟩
  · cases he
  · cases he
  · cases he
  · cases he
  · exact ⟨hl, ha, ⟨l, hi, ho⟩, rfl⟩
  · cases he
  · cases he
  · cases he
  · cases he

theorem exec_emits_iff (h : exec i s = .next t) :
    t.out.emit.isSome = true ↔ s.live = true ∧ s.state = .accumulating ∧
      ∃ l, i = timeoutOp l ∧ setLine s.timeoutFlags l true = bothLines := by
  simp only [setLine_true_eq_bothLines]
  constructor
  · intro he
    obtain ⟨hl, ha, htimeout, -⟩ := exec_emitting h he
    exact ⟨hl, ha, htimeout⟩
  · rintro ⟨hl, ha, l, rfl, ho⟩
    rw [exec_timeoutOp, timeout_of_other_flag_set hl ha ho] at h
    cases h
    rfl

end

/-- Settles O52: an emitting step completes the frame, whose registers the widths hold (O53), and a bus carries its
number or nothing. -/
theorem emitPortCarriesTheCodewordInItsWidths : Obligations.EmitPortCarriesTheCodewordInItsWidths := by
  unfold Obligations.EmitPortCarriesTheCodewordInItsWidths
  refine ⟨fun i s t w h => exec_emits_iff h, fun i s t w hinv hkept hw hwf hno h hvalid => ?_, fun o w hvalid => ?_,
    fun o w c he => ?_⟩
  · obtain ⟨-, ha, -, rfl⟩ := exec_emitting h hvalid
    obtain ⟨-, -, registers⟩ := widthIsNeverExceededSilently
    obtain ⟨⟨n, hn, hcount⟩, v, hv, hvalue⟩ := registers s w hinv hkept hw hwf hno
    obtain ⟨-, hopen, -⟩ := hinv
    obtain ⟨-, hpos, hlt, -⟩ := hopen ha
    rw [← hcount] at hpos hlt
    rw [← hvalue] at hlt
    exact ⟨n, v, hn, hv, hcount, hvalue, hpos, hlt⟩
  · have he : o.emit = none := by simpa using hvalid
    simp [he]
  · rw [emitPort_n, emitPort_v, he]
    exact ⟨fun n => onBus_toNat, fun v => onBus_toNat⟩

/-- Settles O48: the invariant after the step holds the emitted codeword within the contract. -/
theorem emittedCodewordsCanBeExtracted : Obligations.EmittedCodewordsCanBeExtracted := by
  unfold Obligations.EmittedCodewordsCanBeExtracted
  intro s t c hinv hfmt h he
  obtain ⟨-, -, hcontract, -⟩ := step_inv hinv h
  obtain ⟨-, hlt⟩ := hcontract c he
  exact ⟨_, exec_extract_of_lt hlt (step_cfg h ▸ hfmt)⟩

/-- R182: a raised fault is added to the record, changes no register and asserts no output. -/
theorem raiseFault_only_records (r : FaultRecord) (s : State) :
    (raiseFault r s).regs = s.regs ∧ (∀ x, x ∈ (raiseFault r s).faults ↔ x ∈ s.faults ∨ x = r) ∧
      (raiseFault r s).out.Silent :=
  ⟨rfl, fun x => (mem_insertFault x r s.faults).trans or_comm, rfl, rfl, rfl⟩

/-- Settles O17: each of the three words raises its own record. -/
theorem reservedWordsOnlyRecordAFault : Obligations.ReservedWordsOnlyRecordAFault := by
  unfold Obligations.ReservedWordsOnlyRecordAFault
  intro s w i hmem
  simp only [List.mem_cons, Prod.mk.injEq, List.not_mem_nil, or_false] at hmem
  rcases hmem with ⟨rfl, rfl⟩ | ⟨rfl, rfl⟩ | ⟨rfl, rfl⟩
  · exact ⟨decode_encode .reserved101, _, rfl, raiseFault_only_records ..⟩
  · exact ⟨decode_encode (.reserved11x .zeroLine), _, rfl, raiseFault_only_records ..⟩
  · exact ⟨decode_encode (.reserved11x .oneLine), _, rfl, raiseFault_only_records ..⟩

end Sys2Proof.Machine
end

section
/-! PROOFS. O49: bit-string literals and the pseudo-instructions (R87). -/

namespace Sys2Proof.Machine

/-- The character of a bit in a literal (R86, R87). -/
def bitChar (b : Bool) : Char := if b then '1' else '0'

theorem bitChar_injective : Function.Injective bitChar := by decide

/-- A literal's value is the string it spells. -/
theorem bitsOfChars_eq_some {cs : List Char} {bits : BitString} (h : bitsOfChars cs = some bits) :
    cs = bits.map bitChar := by
  induction cs generalizing bits with
  | nil => cases h; rfl
  | cons c cs ih =>
    simp only [bitsOfChars] at h
    split at h
    · obtain ⟨bs, hbs, rfl⟩ := Option.map_eq_some_iff.mp h
      rename_i hc
      rw [hc, ih hbs]; rfl
    · split at h
      · obtain ⟨bs, hbs, rfl⟩ := Option.map_eq_some_iff.mp h
        rename_i hc
        rw [hc, ih hbs]; rfl
      · cases h

theorem length_of_bitsOfChars {cs : List Char} {bits : BitString} (h : bitsOfChars cs = some bits) :
    cs.length = bits.length := by
  rw [bitsOfChars_eq_some h, List.length_map]

/-- R87: a literal is refused exactly for a character other than `0` and `1`. -/
theorem bitsOfChars_eq_none (cs : List Char) : bitsOfChars cs = none ↔ ∃ c ∈ cs, c ≠ '0' ∧ c ≠ '1' := by
  induction cs with
  | nil => simp [bitsOfChars]
  | cons c cs ih =>
    rw [List.exists_mem_cons_iff, ← ih]
    by_cases h0 : c = '0'
    · simp [bitsOfChars, h0]
    · by_cases h1 : c = '1'
      · simp [bitsOfChars, h1]
      · simp [bitsOfChars, h0, h1]

theorem expandBits_eq_none (cs : List Char) : expandBits cs = none ↔ cs = [] ∨ ∃ c ∈ cs, c ≠ '0' ∧ c ≠ '1' := by
  rw [← bitsOfChars_eq_none]
  cases hb : bitsOfChars cs with
  | none => simp [expandBits, hb]
  | some bits =>
    have hcs : cs = bits.map bitChar := bitsOfChars_eq_some hb
    cases bits with
    | nil => simpa [expandBits, hb] using hcs
    | cons b bits =>
      have hne : cs ≠ [] := by simp [hcs]
      simp [expandBits, hb, hne]

/-- R87: `BITS` expands to the edges of a non-empty string. -/
theorem expandBits_eq_some {cs : List Char} {is : List Instr} (h : expandBits cs = some is) :
    ∃ b bits, bitsOfChars cs = some (b :: bits) ∧ is = edgesOf (b :: bits) := by
  unfold expandBits at h
  split at h
  · rename_i b bits hb; cases h; exact ⟨b, bits, hb, rfl⟩
  · cases h
  · cases h

@[simp] theorem length_edgesOf (bits : BitString) : (edgesOf bits).length = bits.length := List.length_map _

/-- Character `j` of a literal is carried by edge `j`. -/
theorem getElem?_edgesOf {bits : BitString} {j : Nat} {b : Bool} (h : (bits.map bitChar)[j]? = some (bitChar b)) :
    (edgesOf bits)[j]? = some (edgeOp (lineOfData b)) := by
  rw [List.getElem?_map, Option.map_eq_some_iff] at h
  obtain ⟨b', hb, hc⟩ := h
  rw [edgesOf, List.getElem?_map, hb, bitChar_injective hc]
  rfl

theorem expandBits_edges {cs : List Char} {is : List Instr} (h : expandBits cs = some is) :
    is.length = cs.length ∧
    ∀ j : Nat, (cs[j]? = some '0' → is[j]? = some .edge0) ∧ (cs[j]? = some '1' → is[j]? = some .edge1) := by
  obtain ⟨b, bits, hb, rfl⟩ := expandBits_eq_some h
  obtain rfl := bitsOfChars_eq_some hb
  exact ⟨by simp, fun j => ⟨getElem?_edgesOf (b := false), getElem?_edgesOf (b := true)⟩⟩

/-- Edges alone emit nothing (R105, R106). -/
theorem emitted_edgesOf (bits : BitString) (s : State) : emitted (edgesOf bits) s = [] := by
  induction bits generalizing s with
  | nil => rfl
  | cons b bits ih => exact (emitted_edgeOp_cons ..).trans (ih _)

@[simp] theorem appendBits_live (bits : BitString) (s : State) : (appendBits bits s).live = s.live := by
  induction bits generalizing s with
  | nil => rfl
  | cons b bits ih => exact ih _

/-- R116, R135: from live and Idle, the edges of a string and a timeout of each line emit that string once. -/
theorem emitted_edgesOf_append_endOps {s : State} (b : Bool) (bits : BitString) (hl : s.live = true)
    (hs : s.state = .idle) : emitted (edgesOf (b :: bits) ++ endOps) s =
      [{ bitCount := (b :: bits).length, value := parseU (b :: bits) }] := by
  have hrun := runOps_edgesOf_of_idle bits b hl hs
  obtain ⟨hemit, -⟩ := timeout_pair_of_open
    (s := withStream [] (appendBits bits (frameStart (lineOfData b) s))) .zeroLine (by simp [hl]) (by simp)
  rw [emitted_append endOps hrun, emitted_edgesOf, List.nil_append]
  calc emitted endOps (withStream [] (appendBits bits (frameStart (lineOfData b) s)))
      = [{ bitCount := _, value := _ }] := hemit
    _ = [{ bitCount := (b :: bits).length, value := parseU (b :: bits) }] := by
      simp [appendBits_value, Nat.add_comm]

/-- Settles O49: each expansion by its definition, the refusals by what a literal can spell, and FRAME by running the
edges from Idle and then both timeouts. -/
theorem pseudoInstructionsExpandAsTabled : Obligations.PseudoInstructionsExpandAsTabled := by
  unfold Obligations.PseudoInstructionsExpandAsTabled
  refine ⟨expandBits_eq_none, fun cs is => expandBits_edges, rfl, rfl, fun cs => rfl, fun cs => ?_,
    fun cs bits hb => ?_, fun s cs is hl hs h => ?_⟩
  · exact Option.map_eq_none_iff.trans (bitsOfChars_eq_none cs)
  · rw [expand, hb, length_of_bitsOfChars hb]
    rfl
  · obtain ⟨edges, hbits, rfl⟩ := Option.map_eq_some_iff.mp h
    obtain ⟨b, bits, hb, rfl⟩ := expandBits_eq_some hbits
    rw [length_of_bitsOfChars hb]
    exact ⟨b :: bits, hb, emitted_edgesOf_append_endOps b bits hl hs⟩

end Sys2Proof.Machine
end

section
/-! PROOFS. O9, O10, O12, O13, O14, O16: what one event word does in each situation (R101, R105, R106, R115 to R117,
R130). -/

namespace Sys2Proof.Machine

/-- R101, R103: a step that only falls quiet keeps the registers and the record and asserts no output. -/
theorem quiet_changes_nothing (s : State) :
    (quiet s).regs = s.regs ∧ (quiet s).faults = s.faults ∧ (quiet s).out.Silent :=
  ⟨rfl, rfl, rfl, rfl, rfl⟩

/-- R107: the reference model never exceeds a width, and a finite instance exceeds its own one. -/
theorem exceedsValueW_iff (c : Configuration) (n : Nat) :
    exceedsValueW c n = true ↔ ∃ w, c.widths = some w ∧ w.valueW < n := by
  cases hw : c.widths <;> simp [exceedsValueW, hw]

section
variable {s : State} (l : Line)

/-- R101. -/
theorem edge_of_detached (hl : s.live = false) : edge l s = quiet s := by
  simp [edge, hl]

theorem exec_edgeOp_of_idle (hl : s.live = true) (hs : s.state = .idle) :
    exec (edgeOp l) s = .next (frameStart l s) := by
  rw [exec_edgeOp, edge_of_idle hl hs]

theorem exec_edgeOp_of_accumulating (hl : s.live = true) (hs : s.state = .accumulating) :
    exec (edgeOp l) s = .next (bitAppend l s) := by
  rw [exec_edgeOp, edge_of_accumulating hl hs]

theorem exec_edgeOp_of_detached (hl : s.live = false) : exec (edgeOp l) s = .next (quiet s) := by
  rw [exec_edgeOp, edge_of_detached l hl]

theorem exec_timeoutOp_of_not_open (h : ¬ (s.live = true ∧ s.state = .accumulating)) :
    exec (timeoutOp l) s = .next (quiet s) := by
  rw [exec_timeoutOp, timeout_of_not_open h]

theorem exec_cancel_of_live (hl : s.live = true) : exec .cancel s = .next (teardown s) := by
  simp [exec, execCancel, cancel, hl]

theorem exec_cancel_of_detached (hl : s.live = false) : exec .cancel s = .next (quiet s) := by
  simp [exec, execCancel, cancel, hl]

end

/-- Settles O9: the edge starts a frame. -/
theorem edgeWhileIdleStartsAFrame : Obligations.EdgeWhileIdleStartsAFrame := by
  unfold Obligations.EdgeWhileIdleStartsAFrame
  exact fun s l hl hs => ⟨_, exec_edgeOp_of_idle l hl hs, rfl, rfl, rfl, rfl, rfl⟩

/-- Settles O10: the edge appends its bit, and the append records its overflow. -/
theorem edgeWhileAccumulatingAppendsItsBit : Obligations.EdgeWhileAccumulatingAppendsItsBit := by
  unfold Obligations.EdgeWhileAccumulatingAppendsItsBit
  intro s l hl hs
  refine ⟨_, exec_edgeOp_of_accumulating l hl hs, rfl, fun r => ?_, rfl, rfl, rfl⟩
  rw [bitAppend_faults, mem_faultsAfterAppend, exceedsValueW_iff]

/-- Settles O12: both line events fall quiet while the instance is not live. -/
theorem detachedLineEventsChangeNothing : Obligations.DetachedLineEventsChangeNothing := by
  unfold Obligations.DetachedLineEventsChangeNothing
  intro s l hl
  have hclosed : ¬ (s.live = true ∧ s.state = .accumulating) := by simp [hl]
  exact ⟨⟨_, exec_edgeOp_of_detached l hl, quiet_changes_nothing s⟩,
    ⟨_, exec_timeoutOp_of_not_open l hclosed, quiet_changes_nothing s⟩⟩

/-- Settles O13: with no frame open the timeout falls quiet. -/
theorem timeoutWhileIdleChangesNothing : Obligations.TimeoutWhileIdleChangesNothing := by
  unfold Obligations.TimeoutWhileIdleChangesNothing
  intro s l _ hs
  have hclosed : ¬ (s.live = true ∧ s.state = .accumulating) := by simp [hs]
  exact ⟨_, exec_timeoutOp_of_not_open l hclosed, quiet_changes_nothing s⟩

/-- R116: a completion leaves Idle and clear, and `live` as it was. -/
theorem frameComplete_regs (s : State) : (frameComplete s).regs = clearRegs s.live := rfl

/-- Settles O14: the other line's flag decides between the completion and the flag set, since it alone decides whether
`F'` is `11`. -/
theorem timeoutSetsItsFlagOrCompletesTheFrame : Obligations.TimeoutSetsItsFlagOrCompletesTheFrame := by
  unfold Obligations.TimeoutSetsItsFlagOrCompletesTheFrame
  intro s l hl hs
  simp only [exec_timeoutOp, ne_eq, setLine_true_eq_bothLines]
  cases ho : getLine s.timeoutFlags (otherLine l) with
  | true =>
    rw [timeout_of_other_flag_set hl hs ho]
    exact ⟨_, rfl, rfl, fun hne => absurd rfl hne, fun _ => ⟨by rw [frameComplete_regs, hl], rfl, rfl, rfl⟩⟩
  | false =>
    rw [timeout_of_other_flag_clear hl hs ho]
    exact ⟨_, rfl, rfl, fun _ => ⟨rfl, rfl, rfl, rfl⟩, nofun⟩

/-- Settles O16: CANCEL tears a live instance down and falls quiet on another one, which nothing makes live again. -/
theorem cancelDetachesOnce : Obligations.CancelDetachesOnce := by
  unfold Obligations.CancelDetachesOnce
  refine ⟨decode_encode .cancel, fun s hl => ⟨_, exec_cancel_of_live hl, rfl, rfl, rfl, rfl, rfl, fun hs hclear => ?_⟩,
    fun s hl => ⟨_, exec_cancel_of_detached hl, quiet_changes_nothing s⟩, fun i s t hl h => ?_⟩
  · obtain ⟨-, -, -, harmed⟩ := hclear hs
    exact harmed
  · exact (congrArg FaRegs.live (exec_regs_of_detached hl h)).trans hl

end Sys2Proof.Machine
end

section
/-! PROOFS. O18, O30: what each instruction leaves unchanged, and that it reads no fault record (R102, R105 to R117, R130,
R74, R157). -/

namespace Sys2Proof.Machine

/-- Settles O18: no meaning reads the record (`exec_withRecord`), and none drops a record. -/
theorem recordedFaultsGateNothing : Obligations.RecordedFaultsGateNothing := by
  unfold Obligations.RecordedFaultsGateNothing
  intro i s t f h
  obtain ⟨g, hg⟩ := exec_withRecord (c := s.cfg) rfl f h
  exact ⟨_, hg, withRecord_regs .., withRecord_out .., fun r hr => exec_keeps_faults hg hr⟩

section
variable (l : Line) (s : State)

@[simp] theorem edge_live : (edge l s).live = s.live := by
  rcases edge_cases l s with ⟨-, e⟩ | ⟨-, -, e⟩ | ⟨-, -, e⟩ <;> rw [e] <;> rfl

/-- R183: an edge can record an overflow only. -/
theorem reservedEvent_mem_edge_faults (w : EventWord) :
    .reservedEvent w ∈ (edge l s).faults ↔ .reservedEvent w ∈ s.faults := by
  rcases edge_cases l s with ⟨-, e⟩ | ⟨-, -, e⟩ | ⟨-, -, e⟩
  · rw [e, quiet_faults]
  · rw [e, frameStart_faults]
  · simp [e, mem_faultsAfterAppend]

/-- R106: in an open frame, live or not, an edge keeps the control state, the timers and the other line's flag. -/
theorem edge_keeps_of_accumulating (hs : s.state = .accumulating) :
    (edge l s).state = s.state ∧ (edge l s).armed = s.armed ∧
      getLine (edge l s).timeoutFlags (otherLine l) = getLine s.timeoutFlags (otherLine l) := by
  rcases edge_cases l s with ⟨-, e⟩ | ⟨-, hi, -⟩ | ⟨-, -, e⟩
  · rw [e]; exact ⟨rfl, rfl, rfl⟩
  · exact nomatch hs.symm.trans hi
  · rw [e]; exact ⟨rfl, rfl, getLine_setLine_other ..⟩

@[simp] theorem timeout_live : (timeout l s).live = s.live := by
  rcases timeout_cases l s with ⟨-, e⟩ | ⟨-, -, e⟩ | ⟨-, -, -, e⟩ | ⟨-, -, -, e⟩ <;> rw [e] <;> rfl

@[simp] theorem timeout_faults : (timeout l s).faults = s.faults := by
  rcases timeout_cases l s with ⟨-, e⟩ | ⟨-, -, e⟩ | ⟨-, -, -, e⟩ | ⟨-, -, -, e⟩ <;> rw [e] <;> rfl

/-- R115, R117: with the other line's flag clear, a timeout keeps the frame and that flag. -/
theorem timeout_keeps_of_other_flag_clear (ho : getLine s.timeoutFlags (otherLine l) = false) :
    (timeout l s).state = s.state ∧ (timeout l s).bitCount = s.bitCount ∧ (timeout l s).value = s.value ∧
      (timeout l s).armed = s.armed ∧ getLine (timeout l s).timeoutFlags (otherLine l) = false := by
  rcases timeout_cases l s with ⟨-, e⟩ | ⟨-, -, e⟩ | ⟨-, -, hset, -⟩ | ⟨-, -, -, e⟩
  · rw [e]; exact ⟨rfl, rfl, rfl, rfl, ho⟩
  · rw [e]; exact ⟨rfl, rfl, rfl, rfl, ho⟩
  · exact nomatch ho.symm.trans hset
  · rw [e]; exact ⟨rfl, rfl, rfl, rfl, (getLine_setLine_other ..).trans ho⟩

theorem cancel_faults : (cancel s).faults = s.faults := by
  rcases cancel_cases s with ⟨-, e⟩ | ⟨-, e⟩ <;> rw [e] <;> rfl

end

/-- R74, R182: a reserved word raises a `ReservedEvent` record. -/
theorem exec_reserved {i : Instr} (hi : i = .reserved101 ∨ ∃ l, i = .reserved11x l) (s : State) :
    ∃ w, exec i s = .next (raiseFault (.reservedEvent w) s) := by
  rcases hi with rfl | ⟨l, rfl⟩ <;> exact ⟨_, rfl⟩

/-- R157: where FX answers, it delivers its result and writes nothing else. -/
theorem exec_extract_eq_deliverFx {n v : Nat} {s t : State} (h : exec (.extract n v) s = .next t) :
    ∃ r, t = deliverFx r s := by
  rcases execExtract_cases n v s with ⟨-, e⟩ | ⟨-, -, e⟩ | ⟨-, -, e⟩
  · cases e.symm.trans h
  · cases e.symm.trans h
  · cases e.symm.trans h; exact ⟨_, rfl⟩

/-- Settles O30: the configuration and the stream for all instructions at once (O29), the registers and records family by
family. -/
theorem frameOfEachInstruction : Obligations.FrameOfEachInstruction := by
  unfold Obligations.FrameOfEachInstruction
  refine ⟨fun l s t h => ?_, fun l s t h => ?_, fun s t h => ⟨?_, exec_cfg h, exec_stream h⟩, fun i s t hi h => ?_,
    fun n v s t h => ?_⟩
  · have hcfg := exec_cfg h
    have hstream := exec_stream h
    cases (exec_edgeOp l s).symm.trans h
    exact ⟨edge_live l s, reservedEvent_mem_edge_faults l s, hcfg, hstream, edge_keeps_of_accumulating l s⟩
  · have hcfg := exec_cfg h
    have hstream := exec_stream h
    cases (exec_timeoutOp l s).symm.trans h
    exact ⟨timeout_live l s, timeout_faults l s, hcfg, hstream, timeout_keeps_of_other_flag_clear l s⟩
  · cases h; exact cancel_faults s
  · obtain ⟨w, hw⟩ := exec_reserved hi s
    cases hw.symm.trans h
    exact ⟨rfl, fun n => by simp [mem_insertFault], rfl, rfl⟩
  · obtain ⟨r, rfl⟩ := exec_extract_eq_deliverFx h
    exact ⟨rfl, rfl, rfl, rfl⟩

end Sys2Proof.Machine
end

section
/-! PROOFS. O33, O35: which instruction asserts which output (R84, R103, R137, R139, R157). -/

namespace Sys2Proof.Machine

/-- Settles O33: the emitting instruction completes a frame, which the invariant holds within R139's contract. -/
theorem emissionNeedsBothTimeouts : Obligations.EmissionNeedsBothTimeouts := by
  unfold Obligations.EmissionNeedsBothTimeouts
  intro i s t c h he
  obtain ⟨hl, ha, htimeout, rfl⟩ := exec_emitting h (Option.isSome_of_mem he)
  cases he
  refine ⟨htimeout, hl, ha, rfl, rfl, fun hinv => ?_⟩
  obtain ⟨-, hopen, -⟩ := hinv
  obtain ⟨-, hpos, hlt, -⟩ := hopen ha
  exact ⟨hpos, hlt⟩

section
variable {i : Instr} {s t : State}

/-- R105: only a frame start asserts `arm`, for both lines, and it disarms none. -/
theorem exec_arming (h : exec i s = .next t) (ha : t.out.arm ≠ noLine) :
    (∃ l, i = edgeOp l) ∧ s.live = true ∧ s.state = .idle ∧ t.out.arm = bothLines ∧ t.out.disarm = noLine := by
  rcases exec_next_cases h with ⟨rfl, -, -⟩ | ⟨rfl, -, -, -⟩ | ⟨l, hi, hl, hs, rfl⟩ | ⟨l, -, -, -, rfl⟩ |
    ⟨l, -, -, -, -, rfl⟩ | ⟨l, -, -, -, -, rfl⟩ | ⟨-, -, rfl⟩ | ⟨w, -, rfl⟩ | ⟨n, v, -, -, -, rfl⟩
  · exact absurd rfl ha
  · exact absurd rfl ha
  · exact ⟨⟨l, hi⟩, hl, hs, rfl, rfl⟩
  · exact absurd rfl ha
  · exact absurd rfl ha
  · exact absurd rfl ha
  · exact absurd rfl ha
  · exact absurd rfl ha
  · exact absurd rfl ha

/-- R116, R130: only a completion and a teardown assert `disarm`. -/
theorem exec_disarming (h : exec i s = .next t) (hd : t.out.disarm ≠ noLine) :
    s.live = true ∧
      ((∃ l, i = timeoutOp l ∧ getLine s.timeoutFlags (otherLine l) = true ∧ s.state = .accumulating ∧
        t.out.disarm = bothLines) ∨ (i = .cancel ∧ t.out.disarm = s.armed)) := by
  rcases exec_next_cases h with ⟨rfl, -, -⟩ | ⟨rfl, -, -, -⟩ | ⟨l, -, -, -, rfl⟩ | ⟨l, -, -, -, rfl⟩ |
    ⟨l, hi, hl, hs, ho, rfl⟩ | ⟨l, -, -, -, -, rfl⟩ | ⟨hi, hl, rfl⟩ | ⟨w, -, rfl⟩ | ⟨n, v, -, -, -, rfl⟩
  · exact absurd rfl hd
  · exact absurd rfl hd
  · exact absurd rfl hd
  · exact absurd rfl hd
  · exact ⟨hl, .inl ⟨l, hi, ho, hs, rfl⟩⟩
  · exact absurd rfl hd
  · exact ⟨hl, .inr ⟨hi, rfl⟩⟩
  · exact absurd rfl hd
  · exact absurd rfl hd

/-- R84: no step asserts both commands, since the one that arms starts a frame. -/
theorem exec_arm_or_disarm (h : exec i s = .next t) : t.out.arm = noLine ∨ t.out.disarm = noLine := by
  by_cases ha : t.out.arm = noLine
  · exact .inl ha
  · obtain ⟨-, -, -, -, hdisarm⟩ := exec_arming h ha
    exact .inr hdisarm

/-- R103, R157: a step without a request holds no result. -/
theorem exec_fx_eq_none (h : exec i s = .next t) (hi : ∀ n v, i ≠ .extract n v) : t.out.fx = none := by
  rcases exec_next_cases h with ⟨rfl, -, -⟩ | ⟨rfl, -, -, -⟩ | ⟨l, -, -, -, rfl⟩ | ⟨l, -, -, -, rfl⟩ |
    ⟨l, -, -, -, -, rfl⟩ | ⟨l, -, -, -, -, rfl⟩ | ⟨-, -, rfl⟩ | ⟨w, -, rfl⟩ | ⟨n, v, he, -, -, -⟩
  · rfl
  · rfl
  · rfl
  · rfl
  · rfl
  · rfl
  · rfl
  · rfl
  · exact absurd he (hi n v)

theorem exec_fx_eq_some_iff (h : exec i s = .next t) (r : FieldResult) :
    t.out.fx = some r ↔ ∃ n v, i = .extract n v ∧ r = extractFields s.cfg.fmt n v := by
  constructor
  · intro hr
    by_cases hi : ∃ n v, i = .extract n v
    · obtain ⟨n, v, rfl⟩ := hi
      exact ⟨n, v, rfl, Option.some.inj (hr.symm.trans (exec_extract_fx h))⟩
    · have hnone : t.out.fx = none := exec_fx_eq_none h fun n v e => hi ⟨n, v, e⟩
      exact nomatch hnone.symm.trans hr
  · rintro ⟨n, v, rfl, rfl⟩
    exact exec_extract_fx h

end

/-- Settles O35: one lemma per output, each over every way an instruction completes. -/
theorem timerCommandsComeFromTheirRulesOnly : Obligations.TimerCommandsComeFromTheirRulesOnly := by
  unfold Obligations.TimerCommandsComeFromTheirRulesOnly
  refine fun i s t h => ⟨fun ha => ?_, exec_disarming h, exec_arm_or_disarm h, exec_fx_eq_some_iff h⟩
  obtain ⟨hi, hl, hs, harm, -⟩ := exec_arming h ha
  exact ⟨hi, hl, hs, harm⟩

end Sys2Proof.Machine
end

section
/-! PROOFS. O37, O39: the frame law and the kept flag (R135, R138). -/

namespace Sys2Proof.Machine

/-- A count that fits the width makes every smaller one fit (R107). -/
theorem exceedsValueW_of_le {c : Configuration} {m n : Nat} (h : exceedsValueW c n = false) (hmn : m ≤ n) :
    exceedsValueW c m = false := by
  refine Bool.eq_false_iff.mpr fun hm => Bool.eq_false_iff.mp h ?_
  obtain ⟨w, hw, hlt⟩ := (exceedsValueW_iff c m).mp hm
  exact (exceedsValueW_iff c n).mpr ⟨w, hw, hlt.trans_le hmn⟩

/-- Appends within the width record nothing (R107). -/
theorem appendBits_faults_within (bits : BitString) {s : State}
    (h : exceedsValueW s.cfg (s.bitCount + bits.length) = false) : (appendBits bits s).faults = s.faults := by
  induction bits generalizing s with
  | nil => rfl
  | cons b bits ih =>
    rw [List.length_cons, Nat.add_comm bits.length, ← Nat.add_assoc] at h
    have hone : exceedsValueW s.cfg (s.bitCount + 1) = false := exceedsValueW_of_le h (Nat.le_add_right ..)
    exact (ih (s := bitAppend (lineOfData b) s) h).trans (faultsAfterAppend_within hone)

/-- Settles O37: the edges open the frame of their bits and emit nothing (O36), and one timeout of each line emits it and
clears it (O43). -/
theorem frameLaw : Obligations.FrameLaw := by
  unfold Obligations.FrameLaw
  intro s bits l hl hs hne
  obtain ⟨b, rest, rfl⟩ := List.exists_cons_of_ne_nil hne
  have hrun := runOps_edgesOf_of_idle rest b hl hs
  generalize ht : withStream [] (appendBits rest (frameStart (lineOfData b) s)) = t at hrun
  have hcount : t.bitCount = (b :: rest).length := by subst ht; simp [Nat.add_comm]
  have hvalue : t.value = parseU (b :: rest) := by subst ht; simp [appendBits_value]
  obtain ⟨hemit, hregs⟩ := timeout_pair_of_open (s := t) l (by subst ht; simp [hl]) (by subst ht; simp)
  refine ⟨?_, _, (runOps_append _ hrun).trans (runOps_timeoutOp_pair l), hregs, fun hw => ?_⟩
  · rw [emitted_append _ hrun, emitted_edgesOf, List.nil_append, hemit, hcount, hvalue]
  · have hwithin : exceedsValueW s.cfg (1 + rest.length) = false := by rwa [Nat.add_comm]
    rw [withStream_faults, timeout_faults, timeout_faults, ← ht]
    exact appendBits_faults_within rest (s := frameStart (lineOfData b) s) hwithin

/-- R106: `k` appends of the data bit `d` and one more are `k + 1` appends. -/
theorem value_after_replicate_succ (v d k : Nat) :
    (2 * v + d) * 2 ^ k + d * (2 ^ k - 1) = v * 2 ^ (k + 1) + d * (2 ^ (k + 1) - 1) := by
  have hpos : 0 < 2 ^ k := Nat.two_pow_pos k
  have hsub : 2 ^ (k + 1) - 1 = 2 ^ k + (2 ^ k - 1) := by omega
  rw [hsub, pow_succ]
  ring

/-- R138: the kept flag of the other line lets the timeout after any number of edges of `l` complete the frame. -/
theorem emitted_replicate_edgeOp_timeoutOp {s : State} {l : Line} (k : Nat) (hl : s.live = true)
    (hs : s.state = .accumulating) (ho : getLine s.timeoutFlags (otherLine l) = true) :
    emitted (List.replicate k (edgeOp l) ++ [timeoutOp l]) s =
      [{ bitCount := s.bitCount + k, value := s.value * 2 ^ k + dataBit l * (2 ^ k - 1) }] := by
  induction k generalizing s with
  | zero =>
    rw [List.replicate_zero, List.nil_append, emitted_timeoutOp_cons, timeout_of_other_flag_set hl hs ho]
    simp
  | succ k ih =>
    have hkept : getLine (bitAppend l s).timeoutFlags (otherLine l) = true :=
      (getLine_setLine_other ..).trans ho
    rw [List.replicate_succ, List.cons_append, emitted_edgeOp_cons, edge_of_accumulating hl hs,
      ih (s := bitAppend l s) hl hs hkept, bitAppend_bitCount, bitAppend_value, appendBit_eq,
      value_after_replicate_succ, Nat.add_assoc, Nat.add_comm 1 k]

/-- Settles O39: by induction on the number of edges, each of which keeps the other line's flag; in the rule's example
`EDGE1, TMO0` leaves ZeroLine's flag set, and two edges and `TMO1` follow. -/
theorem terminationNeedsNoFreshTimeout : Obligations.TerminationNeedsNoFreshTimeout := by
  unfold Obligations.TerminationNeedsNoFreshTimeout
  refine ⟨fun s l k => emitted_replicate_edgeOp_timeoutOp k, fun s hl hs => ?_⟩
  have hflagged : timeout .zeroLine (edge .oneLine s) = timeoutSet .zeroLine (frameStart .oneLine s) := by
    rw [edge_of_idle hl hs]
    exact timeout_of_other_flag_clear (s := frameStart .oneLine s) hl rfl rfl
  calc emitted [.edge1, .tmo0, .edge1, .edge1, .tmo1] s
      = emitted [.tmo0, .edge1, .edge1, .tmo1] (edge .oneLine s) := emitted_edgeOp_cons .oneLine ..
    _ = emitted [.edge1, .edge1, .tmo1] (timeoutSet .zeroLine (frameStart .oneLine s)) :=
      (emitted_timeoutOp_cons .zeroLine ..).trans (by rw [hflagged]; rfl)
    _ = [{ bitCount := 3, value := 7 }] :=
      emitted_replicate_edgeOp_timeoutOp (l := .oneLine) 2 hl rfl rfl

end Sys2Proof.Machine
end

section
/-! PROOFS. O38: the one-bit law, and which lengths a v7 table knows (R136, R158). -/

namespace Sys2Proof.Machine

/-- A lookup succeeds exactly for the keys of the table (R51). -/
theorem fmtLookup_isSome_iff (t : FormatTable) (n : Nat) : (fmtLookup t n).isSome = true ↔ n ∈ t.map Prod.fst := by
  induction t with
  | nil => simp [fmtLookup]
  | cons e t ih =>
    by_cases hk : e.1 = n
    · simp [fmtLookup, hk]
    · simp [fmtLookup, hk, Ne.symm hk, ih]

/-- R158: three entries that include the keys 26, 35 and 37 have no other key. -/
theorem fmtLookup_isSome_iff_of_isV7 {t : FormatTable} (h : fmtIsV7 t = true) (n : Nat) :
    (fmtLookup t n).isSome = true ↔ n = 26 ∨ n = 35 ∨ n = 37 := by
  simp only [fmtIsV7, Bool.and_eq_true, decide_eq_true_eq, fmtLookup_isSome_iff] at h
  obtain ⟨⟨⟨hlen, h26⟩, h35⟩, h37⟩ := h
  have hsub : [26, 35, 37] ⊆ t.map Prod.fst := by simp [h26, h35, h37]
  have hperm : [26, 35, 37].Perm (t.map Prod.fst) :=
    (List.subperm_of_subset (by decide) hsub).perm_of_length_le (by simp [hlen])
  rw [fmtLookup_isSome_iff, ← hperm.mem_iff]
  simp

/-- Settles O38: the edge opens a frame of its one bit, which the timeouts emit (O43), and 1 is no key of v7. -/
theorem oneBitLaw : Obligations.OneBitLaw := by
  unfold Obligations.OneBitLaw
  refine fun s l l' hl hs => ⟨?_, fun _ hv7 => ?_⟩
  · obtain ⟨hemit, -⟩ := timeout_pair_of_open (s := frameStart l s) l' hl rfl
    rw [emitted_edgeOp_cons, edge_of_idle hl hs, hemit, frameStart_bitCount, frameStart_value]
  · rw [extractFields_known, Bool.eq_false_iff]
    simp [fmtLookup_isSome_iff_of_isV7 hv7]

end Sys2Proof.Machine
end

section
/-! PROOFS. O22, O24, O26: the slices of a codeword's string as bit fields of its value, their ranges, and `encoded`
(R153, R155, R163). -/

namespace Sys2Proof.Machine

/-- The first `m` characters of `bin_{m+k}(v)` are the bits above the lowest `k`, and the others are the lowest `k`. -/
theorem bin_add (m k v : Nat) : bin (m + k) v = bin m (v >>> k) ++ bin k v := by
  induction m with
  | zero => simp [bin]
  | succ m ih => rw [Nat.succ_add, bin, bin, ih, Nat.testBit_shiftRight, Nat.add_comm k, List.cons_append]

/-- A slice of a string within R158's bounds is the string of the bits at its place. -/
theorem substring_bin {n : Nat} {sl : Slice} (v : Nat) (hab : sl.a ≤ sl.b) (hb : sl.b < n) :
    substring (bin n v) sl = bin (sliceWidth sl) (v >>> (n - 1 - sl.b)) := by
  obtain ⟨k, rfl⟩ : ∃ k, n = sl.a + (sliceWidth sl + k) := ⟨n - 1 - sl.b, by unfold sliceWidth; omega⟩
  have hk : sl.a + (sliceWidth sl + k) - 1 - sl.b = k := by unfold sliceWidth; omega
  have hdrop : (bin (sl.a + (sliceWidth sl + k)) v).drop sl.a = bin (sliceWidth sl + k) v := by
    rw [bin_add, List.drop_left' (length_bin ..)]
  have htake : (bin (sliceWidth sl + k) v).take (sliceWidth sl) = bin (sliceWidth sl) (v >>> k) := by
    rw [bin_add, List.take_left' (length_bin ..)]
  rw [hk, ← htake, ← hdrop, substring, sliceWidth]

/-- R153: the value of a slice is the bit field `v[n−1−a : n−1−b]`. -/
theorem parseU_substring_bin {n : Nat} {sl : Slice} (v : Nat) (hab : sl.a ≤ sl.b) (hb : sl.b < n) :
    parseU (substring (bin n v) sl) = bitField v (n - 1 - sl.a) (n - 1 - sl.b) := by
  have hwidth : n - 1 - sl.a + 1 - (n - 1 - sl.b) = sliceWidth sl := by unfold sliceWidth; omega
  rw [substring_bin v hab hb, parseU_bin_mod, bitField, hwidth]

theorem sliceWidth_eq {sl : Slice} (hab : sl.a ≤ sl.b) : sliceWidth sl = sl.b - sl.a + 1 := by
  unfold sliceWidth; omega

/-- R163: a field has no more bits than its slice. -/
theorem fieldOf_lt (raw : BitString) (sl : Slice) : fieldOf raw sl < 2 ^ sliceWidth sl :=
  (parseU_lt _).trans_le (Nat.pow_le_pow_right (by decide) (List.length_take_le ..))

section
variable {fmt : FormatTable} {n : Nat} {d : Descriptor} (hw : fmtWf fmt = true) (h : fmtLookup fmt n = some d)
include hw h

/-- R158 (i): the slices of a known length lie in its codeword. -/
theorem slice_bounds_of_lookup {sl : Slice} (hsl : sl ∈ [d.fc, d.cn, d.cnnf]) : sl.a ≤ sl.b ∧ sl.b < n := by
  have hd := descriptorWf_of_lookup hw h
  simp only [descriptorWf, sliceWf, Bool.and_eq_true, decide_eq_true_eq] at hd
  obtain ⟨⟨⟨hfc, hcn⟩, hcnnf⟩, -⟩ := hd
  simp only [List.mem_cons, List.not_mem_nil, or_false] at hsl
  rcases hsl with rfl | rfl | rfl
  · exact hfc
  · exact hcn
  · exact hcnnf

/-- R158 (ii): the header of a known length fills the 64 bits. -/
theorem header_length_of_lookup : d.header.length + n = 64 := by
  have hd := descriptorWf_of_lookup hw h
  simp only [descriptorWf, Bool.and_eq_true, decide_eq_true_eq] at hd
  exact hd.2

end

/-- Settles O22: the result's fields are the slices by definition, and a slice is the string of a bit field. -/
theorem fieldsAreBitFieldsOfTheValue : Obligations.FieldsAreBitFieldsOfTheValue := by
  unfold Obligations.FieldsAreBitFieldsOfTheValue
  intro fmt n v d hw _ h
  refine ⟨by simp [h, fieldOf], by simp [h, fieldOf], by simp [h, fieldOf], fun sl hsl => ?_⟩
  obtain ⟨hab, hb⟩ := slice_bounds_of_lookup hw h hsl
  exact ⟨parseU_substring_bin v hab hb, by rw [substring_bin v hab hb, length_bin, sliceWidth_eq hab]⟩

/-- R155: the header stands above the codeword. -/
theorem extractFields_encoded_of_lt {n v : Nat} (fmt : FormatTable) (hv : v < 2 ^ n) :
    (extractFields fmt n v).encoded = parseU (headerOf (fmtLookup fmt n)) * 2 ^ n + v := by
  rw [extractFields_encoded, parseU_append, length_bin, parseU_bin hv]

/-- Settles O24: a known length's header is the descriptor's, of `64 − n` bits, and an unknown one's is `0`. -/
theorem encodedIsTheHeaderAboveTheValue : Obligations.EncodedIsTheHeaderAboveTheValue := by
  unfold Obligations.EncodedIsTheHeaderAboveTheValue
  refine fun fmt n v hw hv => ⟨fun d h => ?_, fun h => ?_⟩
  · have hlen : d.header.length + n = 64 := header_length_of_lookup hw h
    exact ⟨by rw [extractFields_encoded_of_lt fmt hv, h, headerOf], by simp [h, headerOf, hlen]⟩
  · have hzero : parseU unknownHdr = 0 := rfl
    exact ⟨by rw [extractFields_encoded_of_lt fmt hv, h, headerOf, hzero, Nat.zero_mul, Nat.zero_add],
      by simp [h, headerOf, unknownHdr]⟩

/-- R160 to R163: a row of the table of ranges is the row of a default descriptor, whose header has the value 1. -/
theorem defaultFmt_lookup_of_mem_ranges {n f c k : Nat}
    (hmem : (n, f, c, k) ∈ [(26, 255, 65535, 16777215), (35, 4095, 1048575, 4294967295),
      (37, 65535, 524287, 34359738367)]) :
    ∃ d, fmtLookup defaultFmt n = some d ∧ 2 ^ sliceWidth d.fc = f + 1 ∧ 2 ^ sliceWidth d.cn = c + 1 ∧
      2 ^ sliceWidth d.cnnf = k + 1 ∧ parseU d.header = 1 := by
  simp only [List.mem_cons, Prod.mk.injEq, List.not_mem_nil, or_false] at hmem
  rcases hmem with ⟨rfl, rfl, rfl, rfl⟩ | ⟨rfl, rfl, rfl, rfl⟩ | ⟨rfl, rfl, rfl, rfl⟩
  · exact ⟨descriptor26, by decide⟩
  · exact ⟨descriptor35, by decide⟩
  · exact ⟨descriptor37, by decide⟩

/-- Settles O26: a field is below 2 to the width of its slice, and a default header's one sits at bit `n`. -/
theorem fieldRangesFollowTheSlices : Obligations.FieldRangesFollowTheSlices := by
  unfold Obligations.FieldRangesFollowTheSlices
  refine ⟨fun fmt n v d hw _ h => ?_, fun n f c k hmem v hv => ?_⟩
  · have hrange : ∀ sl ∈ [d.fc, d.cn, d.cnnf], fieldOf (bin n v) sl ≤ 2 ^ (sl.b - sl.a + 1) - 1 := fun sl hsl => by
      rw [← sliceWidth_eq (slice_bounds_of_lookup hw h hsl).1]
      exact Nat.le_pred_of_lt (fieldOf_lt ..)
    simpa [h] using hrange
  · obtain ⟨d, h, hfc, hcn, hcnnf, hheader⟩ := defaultFmt_lookup_of_mem_ranges hmem
    have hle : ∀ {sl : Slice} {x : Nat}, 2 ^ sliceWidth sl = x + 1 → fieldOf (bin n v) sl ≤ x := fun hx =>
      Nat.le_of_lt_succ ((fieldOf_lt ..).trans_eq hx)
    exact ⟨⟨_, by simp [h], hle hfc⟩, ⟨_, by simp [h], hle hcn⟩, ⟨_, by simp [h], hle hcnnf⟩,
      by rw [extractFields_encoded_of_lt _ hv, h, headerOf, hheader, Nat.one_mul]⟩

end Sys2Proof.Machine
end

section
/-! PROOFS. O27, O28: a slice depends on the characters at its own indices only (R153, R164, R165). -/

namespace Sys2Proof.Machine

/-- A slice reads the characters at its indices and no other. -/
theorem substring_congr {s s' : BitString} {sl : Slice} (h : ∀ j, sl.a ≤ j → j ≤ sl.b → s[j]? = s'[j]?) :
    substring s sl = substring s' sl := by
  refine List.ext_getElem? fun i => ?_
  by_cases hi : i < sl.b + 1 - sl.a
  · simpa [substring, List.getElem?_take, hi] using h (sl.a + i) (by omega) (by omega)
  · simp [substring, hi]

section
variable {s t : BitString} {sl : Slice} (hab : sl.a ≤ sl.b) (hb : sl.b < s.length) (ht : t.length = sliceWidth sl)
include hab hb ht

/-- Placing a string of the slice's width keeps the length. -/
theorem length_placeBits : (placeBits s sl t).length = s.length := by
  simp [placeBits, ht, sliceWidth]
  omega

/-- R164: the slice of a string that was placed there is that string. -/
theorem substring_placeBits_same : substring (placeBits s sl t) sl = t := by
  have hlen : (s.take sl.a).length = sl.a := List.length_take_of_le (by omega)
  rw [placeBits, substring, List.append_assoc, List.drop_left' hlen, ← sliceWidth, List.take_left' ht]

/-- R164: placing a string changes no character outside the slice. -/
theorem getElem?_placeBits_of_outside {j : Nat} (hj : j < sl.a ∨ sl.b < j) : (placeBits s sl t)[j]? = s[j]? := by
  have hlen : (s.take sl.a).length = sl.a := List.length_take_of_le (by omega)
  rw [placeBits, List.append_assoc]
  rcases hj with hlt | hgt
  · rw [List.getElem?_append_left (by omega), List.getElem?_take_of_lt hlt]
  · have hsum : sl.a + sliceWidth sl = sl.b + 1 := by unfold sliceWidth; omega
    rw [List.getElem?_append_right (by omega), List.getElem?_append_right (by omega), List.getElem?_drop]
    congr 1
    omega

/-- R164: placing a string at one slice leaves a slice that shares no index with it. -/
theorem substring_placeBits_of_disjoint {sl' : Slice} (hd : slicesDisjoint sl' sl) :
    substring (placeBits s sl t) sl' = substring s sl' :=
  substring_congr fun j ha hb' => getElem?_placeBits_of_outside hab hb ht (by rcases hd with hd | hd <;> omega)

end

/-- Settles O27: the string is read back from its value; its `cn` slice was placed last, and that placement left the `fc`
slice, which shares no index with it. -/
theorem fieldRoundTrip : Obligations.FieldRoundTrip := by
  unfold Obligations.FieldRoundTrip
  refine ⟨fun fmt n fc cn d bits hw h hdis hlen hfc hcn => ?_, by decide⟩
  intro raw
  subst hlen
  obtain ⟨hfcab, hfcb⟩ := slice_bounds_of_lookup hw h (sl := d.fc) (by simp)
  obtain ⟨hcnab, hcnb⟩ := slice_bounds_of_lookup hw h (sl := d.cn) (by simp)
  have hfcLen : (placeBits bits d.fc (bin (sliceWidth d.fc) fc)).length = bits.length :=
    length_placeBits hfcab hfcb (length_bin ..)
  rw [← hfcLen] at hcnb
  have hrawLen : raw.length = bits.length := (length_placeBits hcnab hcnb (length_bin ..)).trans hfcLen
  have hbin : bin bits.length (parseU raw) = raw := hrawLen ▸ bin_parseU raw
  have hfcSlice : substring raw d.fc = bin (sliceWidth d.fc) fc :=
    (substring_placeBits_of_disjoint hcnab hcnb (length_bin ..) hdis).trans
      (substring_placeBits_same hfcab hfcb (length_bin ..))
  have hcnSlice : substring raw d.cn = bin (sliceWidth d.cn) cn :=
    substring_placeBits_same hcnab hcnb (length_bin ..)
  refine ⟨hrawLen ▸ parseU_lt raw, ?_, ?_⟩
  · simp [h, hbin, fieldOf, hfcSlice, parseU_bin hfc]
  · simp [h, hbin, fieldOf, hcnSlice, parseU_bin hcn]

/-- Settles O28: strings that agree on a slice give the same field, and EXTRACT's checks read no bit of the codeword
beyond its contract. -/
theorem bitsOutsideTheSlicesAreNotRead : Obligations.BitsOutsideTheSlicesAreNotRead := by
  unfold Obligations.BitsOutsideTheSlicesAreNotRead
  refine ⟨fun fmt n v v' d _ _ _ h hagree => ?_, fun s n v hw hv => ⟨_, exec_extract_of_lt hv hw⟩⟩
  have hfield : ∀ sl ∈ [d.fc, d.cn, d.cnnf], fieldOf (bin n v) sl = fieldOf (bin n v') sl := fun sl hsl =>
    congrArg parseU (substring_congr (hagree sl hsl))
  simpa [h] using hfield

end Sys2Proof.Machine
end

section
/-! PROOFS. O23, O19, O51: what the table decides of EXTRACT's answer (R150, R152, R156, R159). -/

namespace Sys2Proof.Machine

/-- Settles O23: each field is mapped from the descriptor the lookup finds, and a v7 table's keys are 26, 35 and 37. -/
theorem unknownLengthsGiveNoFields : Obligations.UnknownLengthsGiveNoFields := by
  unfold Obligations.UnknownLengthsGiveNoFields
  refine ⟨fun fmt n v => ?_, fun fmt n v _ hv7 => fmtLookup_isSome_iff_of_isV7 hv7 n, fun fmt n v hk => ?_⟩
  · rw [extractFields_known, Option.isSome_iff_ne_none]
  · have h : fmtLookup fmt n = none := by simpa using hk
    exact ⟨by simp [h], by simp [h], by simp [h], by simp [h, headerOf, unknownHdr], by simp [fxBuses, h]⟩

/-- Settles O19: EXTRACT delivers the result of its stages, whose fields are read off case by case of the lookup. -/
theorem extractReturnsTheFieldResult : Obligations.ExtractReturnsTheFieldResult := by
  unfold Obligations.ExtractReturnsTheFieldResult
  intro s n v hv hw
  refine ⟨_, extractFields s.cfg.fmt n v, exec_extract_of_lt hv hw, rfl, rfl, ⟨rfl, rfl, rfl⟩, rfl, rfl, rfl, rfl,
    rfl, fun d h => ?_, fun h => ?_⟩
  · simp [h, fieldOf, headerOf]
  · simp [h, headerOf, unknownHdr]

/-- R51, R159: the table enters the result through the lookup only. -/
theorem extractFields_congr {fmt fmt' : FormatTable} {n : Nat} (v : Nat) (h : fmtLookup fmt n = fmtLookup fmt' n) :
    extractFields fmt n v = extractFields fmt' n v := by
  simp [extractFields, h]

/-- A descriptor with slices of one bit and a header of zeros, well-formed for any length from 1 to 64 (R158). -/
def oneBitDescriptor (n : Nat) : Descriptor :=
  { fc := ⟨0, 0⟩, cn := ⟨0, 0⟩, cnnf := ⟨0, 0⟩, header := List.replicate (64 - n) false }

/-- A v7 table other than the default one. -/
def oneBitFmt : FormatTable := [26, 35, 37].map fun n => (n, oneBitDescriptor n)

/-- Settles O51: EXTRACT answers under the instance's table, through its lookup only. The codeword of `n` ones tells the
default table from one whose slices are one bit wide, since the default slices are wider, and from one whose headers are
zeros. -/
theorem fieldClaimsNeedAStatedTable : Obligations.FieldClaimsNeedAStatedTable := by
  unfold Obligations.FieldClaimsNeedAStatedTable
  refine ⟨fun s t n v => exec_extract_fx, fun fmt fmt' n v => extractFields_congr v, fun n hn => ?_⟩
  refine ⟨oneBitFmt, 2 ^ n - 1, by decide, by decide, Nat.sub_lt (Nat.two_pow_pos n) (by decide), ?_⟩
  revert n
  decide

end Sys2Proof.Machine
end

section
/-! PROOFS. O11, O5, O15, O20: the overflow record, the waiting step, a repeated timeout, and a request outside the
contract (R183, R184, R192, R198). -/

namespace Sys2Proof.Machine

/-- R106, R183: an append records its overflow with the new count. -/
theorem valueOverflow_mem_bitAppend_faults (l : Line) (s : State) (n : Nat) :
    .valueOverflow n ∈ (bitAppend l s).faults ↔
      .valueOverflow n ∈ s.faults ∨ (n = s.bitCount + 1 ∧ ∃ w, s.cfg.widths = some w ∧ w.valueW < s.bitCount + 1) := by
  rw [bitAppend_faults, mem_faultsAfterAppend, exceedsValueW_iff, FaultRecord.valueOverflow.injEq, and_comm]

/-- R183: where no edge appends, no overflow is recorded; a reserved word records a `ReservedEvent`. -/
theorem valueOverflow_mem_faults_of_no_append {i : Instr} {s t : State} (h : exec i s = .next t)
    (hno : ¬ ((∃ l, i = edgeOp l) ∧ s.live = true ∧ s.state = .accumulating)) (n : Nat) :
    .valueOverflow n ∈ t.faults ↔ .valueOverflow n ∈ s.faults := by
  rcases exec_next_cases h with ⟨rfl, -, -⟩ | ⟨rfl, -, -, -⟩ | ⟨l, -, -, -, rfl⟩ | ⟨l, hi, hl, hs, -⟩ |
    ⟨l, -, -, -, -, rfl⟩ | ⟨l, -, -, -, -, rfl⟩ | ⟨-, -, rfl⟩ | ⟨w, -, rfl⟩ | ⟨n, v, -, -, -, rfl⟩
  · rfl
  · rfl
  · rfl
  · exact absurd ⟨⟨l, hi⟩, hl, hs⟩ hno
  · rfl
  · rfl
  · rfl
  · simp [mem_insertFault]
  · rfl

/-- Settles O11: either the instruction is an edge that appends, which says what it records, or no overflow is new. -/
theorem overflowIsRecordedExactlyBeyondTheWidth : Obligations.OverflowIsRecordedExactlyBeyondTheWidth := by
  unfold Obligations.OverflowIsRecordedExactlyBeyondTheWidth
  intro i s t n h
  by_cases happ : (∃ l, i = edgeOp l) ∧ s.live = true ∧ s.state = .accumulating
  · obtain ⟨⟨l, rfl⟩, hl, hs⟩ := happ
    cases (exec_edgeOp_of_accumulating l hl hs).symm.trans h
    rw [valueOverflow_mem_bitAppend_faults]
    exact or_congr_right ⟨fun ⟨hn, hw⟩ => ⟨⟨l, rfl⟩, hl, hs, rfl, hn, hw⟩, fun ⟨_, _, _, _, hn, hw⟩ => ⟨hn, hw⟩⟩
  · rw [valueOverflow_mem_faults_of_no_append h happ]
    exact ⟨.inl, fun hor => hor.resolve_right fun ⟨hi, hl, hs, _⟩ => happ ⟨hi, hl, hs⟩⟩

/-- Settles O5: with an empty stream the step only falls quiet. -/
theorem waitingHoldsTheState : Obligations.WaitingHoldsTheState := by
  unfold Obligations.WaitingHoldsTheState
  intro s hempty
  obtain ⟨hregs, hfaults, hsilent⟩ := quiet_changes_nothing s
  exact ⟨_, step_of_stream_nil hempty, hregs, hfaults, hsilent, rfl, rfl, hempty⟩

section
variable (l : Line) (s : State)

@[simp] theorem setLine_setLine_same (x : LineBits) (b c : Bool) : setLine (setLine x l b) l c = setLine x l c := by
  cases l <;> rfl

/-- R115: the flag is set already. -/
theorem timeoutSet_timeoutSet_same : timeoutSet l (timeoutSet l s) = timeoutSet l s := by
  simp [timeoutSet, flagsAfterTimeout]

/-- R192: with the other line's flag clear, the second timeout meets the same case as the first: no frame open, or the
flag set. -/
theorem timeout_timeout_of_other_flag_clear (ho : getLine s.timeoutFlags (otherLine l) = false) :
    timeout l (timeout l s) = timeout l s := by
  by_cases hopen : s.live = true ∧ s.state = .accumulating
  · obtain ⟨hl, hs⟩ := hopen
    have ho' : getLine (timeoutSet l s).timeoutFlags (otherLine l) = false := (getLine_setLine_other ..).trans ho
    rw [timeout_of_other_flag_clear hl hs ho, timeout_of_other_flag_clear (s := timeoutSet l s) hl hs ho',
      timeoutSet_timeoutSet_same]
  · rw [timeout_of_not_open hopen, timeout_of_not_open (s := quiet s) hopen]
    rfl

end

/-- Settles O15: a timeout is idempotent while the other line's flag is clear. -/
theorem repeatedTimeoutIsIdempotent : Obligations.RepeatedTimeoutIsIdempotent := by
  unfold Obligations.RepeatedTimeoutIsIdempotent
  intro s t l ho h
  cases (exec_timeoutOp l s).symm.trans h
  rw [exec_timeoutOp, timeout_timeout_of_other_flag_clear l s ho]

/-- R151, R184: the contract is checked before the table. -/
theorem exec_extract_of_ge {n v : Nat} (s : State) (hv : 2 ^ n ≤ v) :
    exec (.extract n v) s = .refused (.extractOutOfContract n v) := by
  rcases execExtract_cases n v s with ⟨-, e⟩ | ⟨hlt, -, -⟩ | ⟨hlt, -, -⟩
  · exact e
  · exact absurd hlt hv.not_gt
  · exact absurd hlt hv.not_gt

/-- Settles O20: EXTRACT refuses the request, and R185 numbers that refusal 3. -/
theorem extractOutOfContractIsRefused : Obligations.ExtractOutOfContractIsRefused := by
  unfold Obligations.ExtractOutOfContractIsRefused
  exact fun s n v hv => ⟨exec_extract_of_ge s hv, rfl⟩

end Sys2Proof.Machine
end

section
/-! PROOFS. O40, O41: after cancellation, and a line event beside it (R212, R222). -/

namespace Sys2Proof.Machine

section
variable {s t : State}

/-- R101, R103: an instance that is not live keeps its registers through a step, and the step emits nothing. -/
theorem step_of_detached (hl : s.live = false) (h : step s = .next t) : t.regs = s.regs ∧ t.out.emit = none := by
  rcases step_next_cases h with ⟨-, rfl⟩ | ⟨inp, rest, i, -, -, hx⟩
  · exact ⟨rfl, rfl⟩
  · rcases exec_detached_cases (s := { s with stream := rest }) hl hx with rfl | ⟨w, rfl⟩ | ⟨r, rfl⟩ <;>
      exact ⟨rfl, rfl⟩

theorem live_of_regs_eq (hl : s.live = false) (hr : t.regs = s.regs) : t.live = false :=
  (congrArg FaRegs.live hr).trans hl

theorem emissions_of_detached (k : Nat) (hl : s.live = false) : emissions k s = [] := by
  induction k generalizing s with
  | zero => rfl
  | succ k ih =>
    by_cases hn : ∃ t, step s = .next t
    · obtain ⟨t, ht⟩ := hn
      obtain ⟨hregs, hemit⟩ := step_of_detached hl ht
      rw [emissions_succ ht, hemit, ih (live_of_regs_eq hl hregs)]
      rfl
    · exact emissions_of_no_next _ hn

theorem core_run_regs_of_detached {k : Nat} (hl : s.live = false) (h : Sys2Proof.core.run k s = .next t) :
    t.regs = s.regs := by
  induction k generalizing s with
  | zero => cases h; rfl
  | succ k ih =>
    obtain ⟨u, hu, hrun⟩ := core_run_succ_next h
    obtain ⟨hregs, -⟩ := step_of_detached hl hu
    exact (ih (live_of_regs_eq hl hregs) hrun).trans hregs

end

/-- Settles O40: by induction on the number of steps, each of which keeps the registers, `live` among them. -/
theorem cancelledInstanceStaysDetached : Obligations.CancelledInstanceStaysDetached := by
  unfold Obligations.CancelledInstanceStaysDetached
  intro k s hl
  refine ⟨emissions_of_detached k hl, fun t hrun => ?_⟩
  have hregs : t.regs = s.regs := core_run_regs_of_detached hl hrun
  exact ⟨live_of_regs_eq hl hregs, hregs⟩

section
variable {i : Instr} {s : State}

/-- The four line events are the edges and the timeouts of the two lines (R12, R101). -/
theorem lineEvent_cases (hi : i ∈ [Instr.edge0, .edge1, .tmo0, .tmo1]) :
    (∃ l, i = edgeOp l) ∨ ∃ l, i = timeoutOp l := by
  simp only [List.mem_cons, List.not_mem_nil, or_false] at hi
  rcases hi with rfl | rfl | rfl | rfl
  · exact .inl ⟨.zeroLine, rfl⟩
  · exact .inl ⟨.oneLine, rfl⟩
  · exact .inr ⟨.zeroLine, rfl⟩
  · exact .inr ⟨.oneLine, rfl⟩

theorem exec_lineEvent_live (hi : (∃ l, i = edgeOp l) ∨ ∃ l, i = timeoutOp l) (s : State) :
    ∃ t, exec i s = .next t ∧ t.live = s.live := by
  rcases hi with ⟨l, rfl⟩ | ⟨l, rfl⟩
  · exact ⟨_, exec_edgeOp l s, edge_live l s⟩
  · exact ⟨_, exec_timeoutOp l s, timeout_live l s⟩

theorem exec_lineEvent_of_detached (hi : (∃ l, i = edgeOp l) ∨ ∃ l, i = timeoutOp l) (hl : s.live = false) :
    exec i s = .next (quiet s) := by
  rcases hi with ⟨l, rfl⟩ | ⟨l, rfl⟩
  · exact exec_edgeOp_of_detached l hl
  · exact exec_timeoutOp_of_not_open l (by simp [hl])

/-- R130: a cancellation drops the open frame and emits nothing. -/
theorem emitted_cancel_cons (is : List Instr) (hl : s.live = true) :
    emitted (.cancel :: is) s = emitted is (teardown s) :=
  emitted_cons (exec_cancel_of_live hl)

theorem runOps_cancel_cons (is : List Instr) (hl : s.live = true) :
    runOps (.cancel :: is) s = runOps is (teardown s) :=
  runOps_cons (exec_cancel_of_live hl)

/-- R130: a teardown leaves Idle and clear, and not live. -/
theorem teardown_regs (s : State) : (teardown s).regs = clearRegs false := rfl

end

/-- Settles O41: the event keeps `live`, so CANCEL after it tears down what it left; after CANCEL it falls quiet. -/
theorem cancellationRaceLeavesNoPartialEmission : Obligations.CancellationRaceLeavesNoPartialEmission := by
  unfold Obligations.CancellationRaceLeavesNoPartialEmission
  intro s i hmem hl
  have hi := lineEvent_cases hmem
  obtain ⟨u, hu, hlive⟩ := exec_lineEvent_live hi s
  have hul : u.live = true := hlive.trans hl
  have hquiet : exec i (teardown s) = .next (quiet (teardown s)) := exec_lineEvent_of_detached hi rfl
  refine ⟨withStream [] (teardown u), withStream [] (quiet (teardown s)), ?_, ?_, teardown_regs u, teardown_regs s,
    ?_, ?_⟩
  · rw [runOps_cons hu, runOps_cancel_cons _ hul, runOps_nil]
  · rw [runOps_cancel_cons _ hl, runOps_cons hquiet, runOps_nil]
  · rw [emitted_cons hu, emitted_cons hu, emitted_cancel_cons _ hul, emitted_nil, emitted_nil]
  · rw [emitted_cancel_cons _ hl, emitted_cons hquiet, emitted_nil]
    rfl

end Sys2Proof.Machine
end

section
/-! PROOFS. O45, O44: timeouts alone emit the open frame (R230), and an edge beside its own line's timeout (R223). -/

namespace Sys2Proof.Machine

theorem timeoutOp_injective : Function.Injective timeoutOp := by
  intro l l'
  cases l <;> cases l' <;> decide

theorem edgeOp_ne_timeoutOp (l l' : Line) : edgeOp l ≠ timeoutOp l' := by
  cases l <;> cases l' <;> decide

theorem eq_otherLine_of_ne {l l' : Line} (h : l' ≠ l) : l' = otherLine l := by
  revert h
  cases l <;> cases l' <;> decide

theorem eq_bothLines_of_getLine {f : LineBits} (h : ∀ l, getLine f l = true) : f = bothLines :=
  lineBits_ext .zeroLine (h _) (h _)

/-- R115, R116, R230: timeouts alone, one at least of each line whose flag is clear, emit the open frame once. A timeout
that does not complete it leaves only the other line's flag clear, and after the completion the machine is Idle. -/
theorem emitted_of_timeouts_only {is : List Instr} {s : State} (hl : s.live = true) (hs : s.state = .accumulating)
    (hf : s.timeoutFlags ≠ bothLines) (hi : ∀ i ∈ is, ∃ l, i = timeoutOp l)
    (hclear : ∀ l, getLine s.timeoutFlags l = false → timeoutOp l ∈ is) :
    emitted is s = [{ bitCount := s.bitCount, value := s.value }] := by
  induction is generalizing s with
  | nil =>
    have hset : ∀ l, getLine s.timeoutFlags l = true := fun l =>
      Bool.eq_true_of_not_eq_false fun h => nomatch hclear l h
    exact absurd (eq_bothLines_of_getLine hset) hf
  | cons i is ih =>
    obtain ⟨l, rfl⟩ := hi i List.mem_cons_self
    have hrest : ∀ i ∈ is, ∃ l, i = timeoutOp l := fun j hj => hi j (List.mem_cons_of_mem _ hj)
    rw [emitted_timeoutOp_cons]
    cases ho : getLine s.timeoutFlags (otherLine l) with
    | true =>
      have hnoEdge : ∀ l, edgeOp l ∉ is := fun l' hmem =>
        have ⟨l'', he⟩ := hrest _ hmem
        edgeOp_ne_timeoutOp l' l'' he
      rw [timeout_of_other_flag_set hl hs ho, emitted_of_idle_of_no_edge (s := frameComplete s) rfl hnoEdge]
      rfl
    | false =>
      rw [timeout_of_other_flag_clear hl hs ho]
      refine ih (s := timeoutSet l s) hl hs (flagsAfterTimeout_ne_bothLines ho) hrest fun l' hl' => ?_
      have hne : l' ≠ l := by
        rintro rfl
        simp [flagsAfterTimeout] at hl'
      obtain rfl := eq_otherLine_of_ne hne
      exact (List.mem_cons.mp (hclear _ ho)).resolve_left fun he => hne (timeoutOp_injective he)

/-- Settles O45: the sequence holds a timeout of each line, so of each line whose flag is clear. -/
theorem silentLinesEmitTheOpenFrame : Obligations.SilentLinesEmitTheOpenFrame := by
  unfold Obligations.SilentLinesEmitTheOpenFrame
  intro is s hl hs hf hi h0 h1
  refine emitted_of_timeouts_only hl hs hf (fun i hmem => ?_) fun l _ => ?_
  · exact (hi i hmem).elim (fun h => ⟨.zeroLine, h⟩) fun h => ⟨.oneLine, h⟩
  · cases l
    · exact h0
    · exact h1

section
variable {s : State} {l : Line} (hl : s.live = true) (hs : s.state = .accumulating)
  (ho : getLine s.timeoutFlags (otherLine l) = true)
include hl hs ho

/-- R106, R138: an edge keeps the other line's flag, so the timeout completes the frame with the new bit. -/
theorem timeout_edge_of_other_flag_set : timeout l (edge l s) = frameComplete (bitAppend l s) := by
  rw [edge_of_accumulating hl hs]
  exact timeout_of_other_flag_set hl hs ((getLine_setLine_other ..).trans ho)

/-- R105, R116: after the timeout the frame is complete, and the edge opens another one. -/
theorem edge_timeout_of_other_flag_set : edge l (timeout l s) = frameStart l (frameComplete s) := by
  rw [timeout_of_other_flag_set hl hs ho]
  exact edge_of_idle hl rfl

end

/-- Settles O44: either order completes the frame, with the edge's bit or before the edge. -/
theorem perLineOrderDecidesTheFrame : Obligations.PerLineOrderDecidesTheFrame := by
  unfold Obligations.PerLineOrderDecidesTheFrame
  intro s l hl hs ho
  have hedgeFirst := timeout_edge_of_other_flag_set hl hs ho
  have htimeoutFirst := edge_timeout_of_other_flag_set hl hs ho
  refine ⟨?_, ?_, ⟨withStream [] (frameComplete (bitAppend l s)), ?_, rfl⟩,
    ⟨withStream [] (frameStart l (frameComplete s)), ?_, rfl, rfl, rfl⟩⟩
  · rw [emitted_edgeOp_cons, emitted_timeoutOp_cons, hedgeFirst, emitted_nil]
    rfl
  · rw [emitted_timeoutOp_cons, emitted_edgeOp_cons, emitted_nil, timeout_of_other_flag_set hl hs ho]
    rfl
  · rw [runOps_edgeOp_cons, runOps_timeoutOp_cons, hedgeFirst, runOps_nil]
  · rw [runOps_timeoutOp_cons, runOps_edgeOp_cons, htimeoutFirst, runOps_nil]

end Sys2Proof.Machine
end

section
/-! PROOFS. O4, O7, O8: the refusals of the step, of construction and of EXTRACT, and the reset state (R210, R213, R214,
R220). -/

namespace Sys2Proof.Machine

/-- An input that is no single operation is refused, in every state (R220). -/
theorem step_of_decode_error {s : State} {inp : Input} {rest : List Input} {why : DecodeReject}
    (hs : s.stream = inp :: rest) (hd : decode inp = .error why) : step s = .refused (refusalOfReject why) := by
  simp only [step, fetch, hs, hd]

/-- Settles O4: an event word with others beside it does not decode. -/
theorem simultaneousEventsAreRefused : Obligations.SimultaneousEventsAreRefused := by
  unfold Obligations.SimultaneousEventsAreRefused
  exact fun s w w' ws rest hs => step_of_decode_error hs rfl

/-- The default format table meets R158 and the reference model's parameters meet R214. -/
theorem referenceConfiguration_wf : configurationWf referenceConfiguration = true := by decide

/-- Settles O7: the reset state is the construction with the reference configuration. -/
theorem resetIsAConstruction : Obligations.ResetIsAConstruction := by
  unfold Obligations.ResetIsAConstruction
  exact ⟨referenceConfiguration_wf, construct_of_wf referenceConfiguration_wf⟩

/-- What a configuration must meet before construction (R7, R213, R214). -/
theorem configurationWf_iff (c : Configuration) : configurationWf c = true ↔
    c.lineIdZero ≠ c.lineIdOne ∧ 0 < c.tMs ∧ c.widths.all widthsWf = true ∧ fmtWf c.fmt = true := by
  simp [configurationWf, and_assoc]

theorem construct_of_not_wf {c : Configuration} (h : ¬ configurationWf c = true) :
    construct c = .refused .illFormedConfiguration := if_neg h

/-- R213: EXTRACT answers no request under an ill-formed table. -/
theorem exec_extract_of_illFormed {n v : Nat} {s : State} (hv : v < 2 ^ n) (hf : fmtWf s.cfg.fmt = false) :
    exec (.extract n v) s = .refused .illFormedConfiguration := by
  rcases execExtract_cases n v s with ⟨hge, -⟩ | ⟨-, -, e⟩ | ⟨-, hwf, -⟩
  · exact absurd hv hge.not_gt
  · exact e
  · exact nomatch hf.symm.trans hwf

/-- Settles O8: each of the three faults fails a conjunct of the check, and EXTRACT checks the table itself. -/
theorem illFormedConfigurationsAreRefused : Obligations.IllFormedConfigurationsAreRefused := by
  unfold Obligations.IllFormedConfigurationsAreRefused
  refine ⟨fun c hbad => construct_of_not_wf fun hwf => ?_, fun s n v => exec_extract_of_illFormed⟩
  obtain ⟨hid, hwindow, -, hfmt⟩ := (configurationWf_iff c).mp hwf
  rcases hbad with h | h | h
  · exact hid h
  · omega
  · exact nomatch h.symm.trans hfmt

end Sys2Proof.Machine
end
